-- ==== Sys2Proof/Word.lean ====
section
/-!
DEFINITION. The words of the QR plan core (00_scope.md R10, R11): bit 0 of every word is its least significant bit and
every number is unsigned.
-/

namespace Sys2Proof

/-- A command word, 32 bits on the port `cmd` (30_encoding.md R80, R91). -/
abbrev CommandWord := BitVec 32

/-- A response word, 32 bits on the port `rsp` (30_encoding.md R80, R97). -/
abbrev ResponseWord := BitVec 32

/-- What a register read answers, 16 bits (10_state.md R21). -/
abbrev RegWord := BitVec 16

/-- A pixel word, 9 bits (30_encoding.md R84). -/
abbrev Pixel := BitVec 9

end Sys2Proof
end

