-- ==== Sys2Proof/Machine/Pixel.lean ====
section
/-!
DEFINITION. The pixel word of 30_encoding.md R84 to R87: its four disjoint fields, the seven roles, and the operations of
the source's Pixel Model on them.
-/

namespace Sys2Proof.Machine

/-- The seven roles, in the order of 30_encoding.md R85. -/
inductive Role where
  | none
  | position
  | alignment
  | timing
  | format
  | data
  | check
  deriving DecidableEq, Repr

/-- The 3-bit role code (30_encoding.md R85); the code 7 is reserved and belongs to no role. -/
def roleCode : Role → BitVec 3
  | .none => 0
  | .position => 1
  | .alignment => 2
  | .timing => 3
  | .format => 4
  | .data => 5
  | .check => 6

/-- `PIX(role, black, invert, offset)`, that is the word whose bits from the top are offset, role, invert, black (30_encoding.md R84). -/
def pix (role : Role) (black invert : Bool) (offset : BitVec 4) : Pixel :=
  offset ++ roleCode role ++ BitVec.ofBool invert ++ BitVec.ofBool black

/-- The `black` flag, bit 0 (30_encoding.md R84). -/
def pixBlack (p : Pixel) : Bool := p.getLsbD 0

/-- The `invert` flag, bit 1 (30_encoding.md R84). -/
def pixInvert (p : Pixel) : Bool := p.getLsbD 1

/-- The role field, bits 4 to 2 (30_encoding.md R84). -/
def pixRole (p : Pixel) : BitVec 3 := p.extractLsb' 2 3

/-- The offset field, bits 8 to 5 (30_encoding.md R84). -/
def pixOffset (p : Pixel) : BitVec 4 := p.extractLsb' 5 4

/-- The pixel with its `invert` flag assigned and its other fields kept, the word of bits 8 to 2, the new flag, bit 0 (42_mask_evaluator.md R191). -/
def pixAssignInvert (p : Pixel) (invert : Bool) : Pixel :=
  p.extractLsb' 2 7 ++ BitVec.ofBool invert ++ p.extractLsb' 0 1

/-- A legal pixel is one whose role field is not the reserved code 7 (30_encoding.md R87). -/
def pixLegal (p : Pixel) : Bool := pixRole p != 7

/-- The cell's role is data or check, the cells MASK writes (42_mask_evaluator.md R191). -/
def pixIsPayload (p : Pixel) : Bool :=
  pixRole p == roleCode .data || pixRole p == roleCode .check

/-- The cleared pixel 0x000, which allocation leaves in every cell (40_geometry_stamper.md R121, 30_encoding.md R85). -/
def clearedPixel : Pixel := 0

end Sys2Proof.Machine
end

