-- ==== Sys2Proof/Syntax.lean ====
section
/-!
DEFINITION. The ten commands of the opcode map (30_encoding.md R96), one constructor for each row of opcode_table.json, with
the operands its format carries (R92 to R94). Levels are ordinals (R88), mask ids and versions plain numbers (R89, R90).
-/

namespace Sys2Proof

/-- A command (30_encoding.md R96; textual forms in R103). -/
inductive Instr where
  /-- `BUILD v, lvl, m` (43_plan_sequencer_and_access.md R203). -/
  | build (version : BitVec 8) (level : BitVec 2) (mask : BitVec 3)
  /-- `GEOM v` (40_geometry_stamper.md R131). -/
  | geom (version : BitVec 8)
  /-- `FMT lvl, m` (41_format_bch.md R160). -/
  | fmt (level : BitVec 2) (mask : BitVec 3)
  /-- `LVL lvl` (43_plan_sequencer_and_access.md R206). -/
  | lvl (level : BitVec 2)
  /-- `MASK m` (42_mask_evaluator.md R191). -/
  | mask (mask : BitVec 3)
  /-- `BCHENC lvl, m` (41_format_bch.md R157). -/
  | bchenc (level : BitVec 2) (mask : BitVec 3)
  /-- `MEVAL i, j` (42_mask_evaluator.md R190). -/
  | meval (row col : BitVec 8)
  /-- `PXRD r, c` (43_plan_sequencer_and_access.md R208). -/
  | pxrd (row col : BitVec 8)
  /-- `PXWR r, c, pix` (43_plan_sequencer_and_access.md R210). -/
  | pxwr (row col : BitVec 8) (pix : Pixel)
  /-- `RDREG name` (43_plan_sequencer_and_access.md R212). -/
  | rdreg (reg : BitVec 4)
  deriving DecidableEq, Repr

end Sys2Proof
end

