-- ==== Sys2Proof/WellFormed.lean ====
section
/-!
DEFINITION. The two conditions on operands that the field widths do not already impose (30_encoding.md R96, R99 (c) and (d)).
-/

namespace Sys2Proof

/-- The command is one that some legal command word carries (30_encoding.md R96): a PXWR pixel is legal and a RDREG index is at most 13. -/
def wellFormed : Instr → Bool
  | .build _ _ _ => true
  | .geom _ => true
  | .fmt _ _ => true
  | .lvl _ => true
  | .mask _ => true
  | .bchenc _ _ => true
  | .meval _ _ => true
  | .pxrd _ _ => true
  | .pxwr _ _ p => Machine.pixLegal p
  | .rdreg n => n.ult 14

end Sys2Proof
end

