-- ==== Sys2Proof/Decode.lean ====
section
/-!
DEFINITION. The decoder of command words (30_encoding.md R91 to R100), total on all 2^32 words and refusing by name, the
encoder written from the same formats, and the assembler text of R103.
-/

namespace Sys2Proof

/-- Why a word is no legal command; the four classes of 30_encoding.md R99. Each is Fault(ILLEGAL_COMMAND) to the machine. -/
inductive DecodeError where
  /-- R99 (a): the opcode is 0x0 or 0xB to 0xF. -/
  | reservedOpcode (op : BitVec 4)
  /-- R99 (b): a must-be-zero bit of the format of this opcode is 1. -/
  | mustBeZero (op : BitVec 4)
  /-- R99 (c): a PXWR whose pixel has role code 7. -/
  | reservedRole (p : Pixel)
  /-- R99 (d): a RDREG of index 14 or 15. -/
  | reservedRegister (reg : BitVec 4)
  deriving DecidableEq, Repr

/-- The field `op`, bits 31 to 28, of every format (30_encoding.md R91). -/
def opField (w : CommandWord) : BitVec 4 := w.extractLsb' 28 4

/-- The field `version`, bits 7 to 0, of format P (30_encoding.md R92). -/
def versionField (w : CommandWord) : BitVec 8 := w.extractLsb' 0 8

/-- The field `level`, bits 9 to 8, of format P (30_encoding.md R92). -/
def levelField (w : CommandWord) : BitVec 2 := w.extractLsb' 8 2

/-- The field `mask`, bits 12 to 10, of format P (30_encoding.md R92). -/
def maskField (w : CommandWord) : BitVec 3 := w.extractLsb' 10 3

/-- The field `col`, bits 7 to 0, of format C (30_encoding.md R93). -/
def colField (w : CommandWord) : BitVec 8 := w.extractLsb' 0 8

/-- The field `row`, bits 15 to 8, of format C (30_encoding.md R93). -/
def rowField (w : CommandWord) : BitVec 8 := w.extractLsb' 8 8

/-- The field `pix`, bits 24 to 16, of format C (30_encoding.md R93). -/
def pixField (w : CommandWord) : Pixel := w.extractLsb' 16 9

/-- The field `reg`, bits 3 to 0, of format R (30_encoding.md R94). -/
def regField (w : CommandWord) : BitVec 4 := w.extractLsb' 0 4

/-- A row of the opcode map selects a word when the bits under the row's mask equal its match (30_encoding.md R96). -/
def selects (rowMatch rowMask w : CommandWord) : Bool := w &&& rowMask == rowMatch

/-- The name of the refusal of a word that no row selects: its opcode is reserved, or a must-be-zero bit is set (30_encoding.md R99 (a), (b)). -/
def rejectReason (w : CommandWord) : DecodeError :=
  if opField w == 0 || (0xB : BitVec 4).ule (opField w) then .reservedOpcode (opField w)
  else .mustBeZero (opField w)

/-- The decoder, row by row of the opcode map with the two further conditions of PXWR and RDREG (30_encoding.md R96, R99, R100). -/
def decode (w : CommandWord) : Except DecodeError Instr :=
  if selects 0x10000000 0xFFFFE000 w then .ok (.build (versionField w) (levelField w) (maskField w))
  else if selects 0x20000000 0xFFFFFF00 w then .ok (.geom (versionField w))
  else if selects 0x30000000 0xFFFFE0FF w then .ok (.fmt (levelField w) (maskField w))
  else if selects 0x40000000 0xFFFFFCFF w then .ok (.lvl (levelField w))
  else if selects 0x50000000 0xFFFFE3FF w then .ok (.mask (maskField w))
  else if selects 0x60000000 0xFFFFE0FF w then .ok (.bchenc (levelField w) (maskField w))
  else if selects 0x70000000 0xFFFF0000 w then .ok (.meval (rowField w) (colField w))
  else if selects 0x80000000 0xFFFF0000 w then .ok (.pxrd (rowField w) (colField w))
  else if selects 0x90000000 0xFE000000 w then
    if Machine.pixLegal (pixField w) then .ok (.pxwr (rowField w) (colField w) (pixField w))
    else .error (.reservedRole (pixField w))
  else if selects 0xA0000000 0xFFFFFFF0 w then
    if (regField w).ult 14 then .ok (.rdreg (regField w))
    else .error (.reservedRegister (regField w))
  else .error (rejectReason w)

/-- The encoder: the fields of each format from the top bit down, every unused field zero (30_encoding.md R92 to R94). -/
def encode : Instr → CommandWord
  | .build v l m => (0x1 : BitVec 4) ++ (0 : BitVec 15) ++ m ++ l ++ v
  | .geom v => (0x2 : BitVec 4) ++ (0 : BitVec 20) ++ v
  | .fmt l m => (0x3 : BitVec 4) ++ (0 : BitVec 15) ++ m ++ l ++ (0 : BitVec 8)
  | .lvl l => (0x4 : BitVec 4) ++ (0 : BitVec 18) ++ l ++ (0 : BitVec 8)
  | .mask m => (0x5 : BitVec 4) ++ (0 : BitVec 15) ++ m ++ (0 : BitVec 10)
  | .bchenc l m => (0x6 : BitVec 4) ++ (0 : BitVec 15) ++ m ++ l ++ (0 : BitVec 8)
  | .meval i j => (0x7 : BitVec 4) ++ (0 : BitVec 12) ++ i ++ j
  | .pxrd r c => (0x8 : BitVec 4) ++ (0 : BitVec 12) ++ r ++ c
  | .pxwr r c p => (0x9 : BitVec 4) ++ (0 : BitVec 3) ++ p ++ r ++ c
  | .rdreg n => (0xA : BitVec 4) ++ (0 : BitVec 24) ++ n

/-- What the decoder reads from an instruction of `nbits` bits with value `w`, numbered as opcode_table.json numbers them;
a command is one 32-bit word, so the bits above `nbits` are zero and a longer row is no command (30_encoding.md R91). -/
def decodeTableWord (nbits w : Nat) : Option Instr :=
  if nbits ≤ 32 then (decode (BitVec.ofNat 32 (w % 2 ^ nbits))).toOption else none

/-- The letter of a level ordinal (30_encoding.md R103). -/
def levelLetter (l : BitVec 2) : String :=
  if l == 0 then "L" else if l == 1 then "M" else if l == 2 then "Q" else "H"

/-- The name of a register index (10_state.md R21), or the index itself for the two reserved ones (30_encoding.md R103). -/
def registerName (n : BitVec 4) : String :=
  ["STAGE", "VERSION", "SIZE", "LEVEL", "MASKID", "DATABYTES", "CHECKBYTES", "BLOCKS", "ERR", "FCAUSE", "FMTRAW",
    "FMTDRAWN", "MVEC", "PXDATA"].getD n.toNat (Nat.repr n.toNat)

/-- A pixel in the assembler's hexadecimal form, three digits after 0x (30_encoding.md R103). -/
def pixelText (p : Pixel) : String :=
  "0x" ++ String.ofList ([p.toNat / 256, p.toNat / 16 % 16, p.toNat % 16].map fun d => (Nat.digitChar d).toUpper)

/-- The textual form of a command: the mnemonic, then its operands separated by commas (30_encoding.md R103). -/
def assemblerText : Instr → String
  | .build v l m => "BUILD " ++ Nat.repr v.toNat ++ ", " ++ levelLetter l ++ ", " ++ Nat.repr m.toNat
  | .geom v => "GEOM " ++ Nat.repr v.toNat
  | .fmt l m => "FMT " ++ levelLetter l ++ ", " ++ Nat.repr m.toNat
  | .lvl l => "LVL " ++ levelLetter l
  | .mask m => "MASK " ++ Nat.repr m.toNat
  | .bchenc l m => "BCHENC " ++ levelLetter l ++ ", " ++ Nat.repr m.toNat
  | .meval i j => "MEVAL " ++ Nat.repr i.toNat ++ ", " ++ Nat.repr j.toNat
  | .pxrd r c => "PXRD " ++ Nat.repr r.toNat ++ ", " ++ Nat.repr c.toNat
  | .pxwr r c p => "PXWR " ++ Nat.repr r.toNat ++ ", " ++ Nat.repr c.toNat ++ ", " ++ pixelText p
  | .rdreg n => "RDREG " ++ registerName n

end Sys2Proof
end

