-- ==== Sys2Proof/Machine/Tables.lean ====
section
/-!
DEFINITION. The default values of the block's two read-only tables, which the spec supplies from general knowledge and asks
a model to take as configuration (00_scope.md R9, 40_geometry_stamper.md R127, 41_format_bch.md R158). Config names them.
-/

namespace Sys2Proof.Machine

/-- An alignment table gives each version its pair (apos, astride) (00_scope.md R9). -/
abbrev AlignTable := Nat → Nat × Nat

/-- A format cell table gives, for a side S and a bit index k, the cell of path A and the cell of path B, each (row, column) (00_scope.md R9). -/
abbrev FormatCells := Nat → Nat → (Nat × Nat) × (Nat × Nat)

/-- The two tables that a model takes as arguments (00_scope.md R9). They are no state and nothing writes them (R6). -/
structure Tables where
  /-- ALIGN_TABLE. -/
  align : AlignTable
  /-- FORMAT_CELLS. -/
  cells : FormatCells

/-- The forty pairs of 40_geometry_stamper.md R127, version 1 first.
PRESUMED (the spec's own general knowledge, G1), unsafe: log entry 1. -/
def alignPairs : List (Nat × Nat) :=
  [(100, 100), (16, 100), (20, 100), (24, 100), (28, 100), (32, 100), (20, 16), (22, 18), (24, 20), (26, 22)] ++
  [(28, 24), (30, 26), (32, 28), (24, 20), (24, 22), (24, 24), (28, 24), (28, 26), (28, 28), (32, 28)] ++
  [(26, 22), (24, 24), (28, 24), (26, 26), (30, 26), (28, 28), (32, 28), (24, 24), (28, 24), (24, 26)] ++
  [(28, 26), (32, 26), (28, 28), (32, 28), (28, 24), (22, 26), (26, 26), (30, 26), (24, 28), (28, 28)]

/-- The default alignment table (40_geometry_stamper.md R127); it is asked for versions 1 to 40 only. -/
def defaultAlignTable : AlignTable := fun v => alignPairs.getD (v - 1) (100, 100)

/-- The cell of path A for bit k (41_format_bch.md R158): down column 8, then along row 8 to the left edge.
PRESUMED (the spec's own general knowledge, G2), unsafe: log entry 2. -/
def pathA (k : Nat) : Nat × Nat :=
  if k ≤ 5 then (k, 8) else if k ≤ 7 then (k + 1, 8) else if k = 8 then (8, 7) else (8, 14 - k)

/-- The cell of path B for bit k in a grid of side S (41_format_bch.md R158): along row 8 from the right edge, then down column 8.
PRESUMED (the spec's own general knowledge, G2), unsafe: log entry 2. -/
def pathB (S k : Nat) : Nat × Nat :=
  if k ≤ 7 then (8, S - 1 - k) else (S + k - 15, 8)

/-- The default format cell table (41_format_bch.md R158). -/
def defaultFormatCells : FormatCells := fun S k => (pathA k, pathB S k)

end Sys2Proof.Machine
end

