-- ==== Sys2Proof/Config.lean ====
section
/-!
DEFINITION. What is fixed for a block and is not state (00_scope.md R6): the two read-only tables of R9 and the parameters the source
fixes (R8). The spec leaves no value free, so there is no free value here.
-/

namespace Sys2Proof.Config

/-- ALIGN_TABLE, at the spec's default (40_geometry_stamper.md R127).
PRESUMED, unsafe: log entry 1. The machine takes the table as an argument (Machine.stepWith), so a claim can name its table. -/
def alignTable : Machine.AlignTable := Machine.defaultAlignTable

/-- FORMAT_CELLS, at the spec's default (41_format_bch.md R158).
PRESUMED, unsafe: log entry 2. The machine takes the table as an argument (Machine.stepWith), so a claim can name its table. -/
def formatCells : Machine.FormatCells := Machine.defaultFormatCells

/-- The tables of the block that `exec` and `step` run: the spec's defaults (00_scope.md R9). -/
def tables : Machine.Tables where
  align := alignTable
  cells := formatCells

/-- VMIN, the least version (00_scope.md R8). -/
def versionMin : Nat := 1

/-- VMAX, the greatest version (00_scope.md R8). -/
def versionMax : Nat := 40

/-- BCH_GEN, the generator polynomial of the format code (00_scope.md R8). -/
def bchGenerator : BitVec 15 := 0x537

/-- FMT_XOR, the masking constant of the format word (00_scope.md R8). -/
def formatXor : BitVec 15 := 0x5412

end Sys2Proof.Config
end

