-- ==== Sys2Proof/Machine/State.lean ====
section
/-!
DEFINITION. The state of the QR plan core (10_state.md R20): its registers, its grid, and its ports as plain data; the ways a
step can stop; the state after reset.
-/

namespace Sys2Proof.Machine

/-- One cell of the grid that is listed: its 16-bit address as a number (20_memory.md R60) and its pixel.
The host's cell of 8 bits is too narrow for the 9-bit pixel: log entry 5. -/
abbrev Cell := Nat × Pixel

/-- The grid's listed cells, addresses strictly rising, none of them the cleared pixel, which is what an unlisted cell holds.
DESIGN CHOICE of the representation, safe: log entry 5. -/
abbrev Grid := List Cell

/-- What the host does next at the block's inputs (70_reset_and_hazards.md R268).
DESIGN CHOICE, safe: log entry 3. -/
inductive HostMove where
  /-- A command word offered on `cmd` and accepted (30_encoding.md R81). -/
  | command (w : CommandWord)
  /-- `rst` sampled high between commands (70_reset_and_hazards.md R260). -/
  | reset
  /-- `rst` sampled high while the command `w` is in flight (70_reset_and_hazards.md R262). -/
  | resetInFlight (w : CommandWord)
  deriving DecidableEq, Repr

/-- The machine's state. Registers 5, 6 and 7 are hardwired to zero and need no storage (10_state.md R27, log entry 6). -/
structure State where
  /-- STAGE, register 0 (10_state.md R22). -/
  stage : BitVec 3
  /-- VERSION, register 1 (10_state.md R23). -/
  version : BitVec 6
  /-- SIZE, register 2 (10_state.md R24). -/
  size : BitVec 8
  /-- LEVEL, register 3 (10_state.md R25). -/
  level : BitVec 2
  /-- MASKID, register 4 (10_state.md R26). -/
  maskId : BitVec 3
  /-- ERR, register 8 (10_state.md R28). -/
  err : BitVec 4
  /-- FCAUSE, register 9 (10_state.md R29). -/
  fcause : BitVec 2
  /-- FMTRAW, register 10 (10_state.md R30). -/
  fmtRaw : BitVec 15
  /-- FMTDRAWN, register 11 (10_state.md R31). -/
  fmtDrawn : BitVec 15
  /-- MVEC, register 12 (10_state.md R32). -/
  mvec : BitVec 8
  /-- PXDATA, register 13 (10_state.md R33). -/
  pxData : Pixel
  /-- The grid (10_state.md R35). -/
  grid : Grid
  /-- The response port: the word on `rsp` while `rsp_valid` is high, nothing while it is low (30_encoding.md R80, log entry 4). -/
  rsp : Option ResponseWord
  /-- The inputs: the host's moves still to come, the next one first (log entry 3). -/
  host : List HostMove
  deriving DecidableEq, Repr

/-- The ways a step can stop with a fault. The faults of 60_exceptions.md are not among them: they are next states. -/
inductive Fault where
  /-- Raised by FMT and BUILD alone, when a format cell lies outside the grid, an address at which no storage exists (20_memory.md R61, R64).
  DESIGN CHOICE, safe: with the default tables no state a run reaches raises it (log entry 7). -/
  | cellOutsideGrid
  deriving DecidableEq, Repr

/-- The ways a step can be refused. No arm of exec uses one: every command has its meaning. -/
inductive Refusal where
  /-- For an instruction that has no meaning in the model; raised by no instruction. Safe: the model stops. -/
  | notModelled (mnemonic : String)
  deriving DecidableEq, Repr

/-- What a meaning or a step answers. -/
abbrev Result := Host.Outcome State Fault Refusal

/-- The state after reset: every register 0, no grid, no response (10_state.md R41, 70_reset_and_hazards.md R260, R261), and no
host move to come (log entry 3). -/
def State.reset : State where
  stage := 0
  version := 0
  size := 0
  level := 0
  maskId := 0
  err := 0
  fcause := 0
  fmtRaw := 0
  fmtDrawn := 0
  mvec := 0
  pxData := 0
  grid := []
  rsp := none
  host := []

end Sys2Proof.Machine
end

