-- ==== Sys2Proof/Machine/Ops.lean ====
section
/-!
DEFINITION. The named operations over the grid, the registers and the ports: cell access (20_memory.md), responses (30_encoding.md
R97, R98), the common checks of 43_plan_sequencer_and_access.md R200, and the two ways a command fails (60_exceptions.md).
-/

namespace Sys2Proof.Machine

/-! ### The grid as a list of cells -/

/-- The number of the 16-bit cell address with row r in bits 15 to 8 and column c in bits 7 to 0 (20_memory.md R60). -/
def cellKey (r c : Nat) : Nat := r * 256 + c

/-- The row of a cell address (20_memory.md R60). -/
def keyRow (a : Nat) : Nat := a / 256

/-- The column of a cell address (20_memory.md R60). -/
def keyCol (a : Nat) : Nat := a % 256

/-- The pixel at an address: the listed one, else the cleared pixel (20_memory.md R63). -/
def gridRead : Grid → Nat → Pixel
  | [], _ => clearedPixel
  | (b, q) :: g, a => if a = b then q else gridRead g a

/-- Lists a pixel at an address, at its place in the rising order. -/
def gridPut : Grid → Nat → Pixel → Grid
  | [], a, p => [(a, p)]
  | (b, q) :: g, a, p =>
    if a < b then (a, p) :: (b, q) :: g
    else if a = b then (a, p) :: g
    else (b, q) :: gridPut g a p

/-- Unlists an address, so that it holds the cleared pixel. -/
def gridErase (g : Grid) (a : Nat) : Grid := g.filter (fun x => x.1 != a)

/-- Replaces the whole pixel at an address (20_memory.md R64), keeping the canonical form. -/
def gridWrite (g : Grid) (a : Nat) (p : Pixel) : Grid :=
  if p = clearedPixel then gridErase g a else gridPut g a p

/-- One write in front of the further overlaying `rest` of a grid in rising order. -/
def overlayOne (w : Cell) (rest : Grid → Grid) : Grid → Grid
  | [] => w :: rest []
  | x :: g =>
    if w.1 < x.1 then w :: rest (x :: g)
    else if w.1 = x.1 then w :: rest g
    else x :: overlayOne w rest g

/-- A run of writes in rising order laid over a grid, the run's pixel winning. -/
def gridOverlay : List Cell → Grid → Grid
  | [], g => g
  | w :: ws, g => overlayOne w (gridOverlay ws) g

/-- Neighbouring runs of writes laid one over the other, the later one winning. -/
def pairRuns : List Grid → List Grid
  | [] => []
  | [a] => [a]
  | a :: b :: rs => gridOverlay b a :: pairRuns rs

/-- So many rounds of pairing. -/
def mergeRuns : Nat → List Grid → List Grid
  | 0, rs => rs
  | n + 1, rs => mergeRuns n (pairRuns rs)

/-- The writes of a list, none of the cleared pixel, in order, a later one winning (40_geometry_stamper.md R129). The writes are sorted
first, so that Lean's kernel can evaluate a whole grid; on a canonical grid this is one gridWrite after another: Laws/Grid.lean.
Irreducible, so that the elaborator does not unfold the rounds on a list it does not know. -/
@[irreducible] def gridWrites (ws : List Cell) (g : Grid) : Grid :=
  (mergeRuns 11 (ws.map fun w => [w])).foldl (fun g r => gridOverlay r g) g

/-- The canonical form of the grid: addresses strictly rising and no cleared pixel listed (log entry 5). -/
abbrev gridWf (g : Grid) : Prop :=
  g.Pairwise (fun x y => x.1 < y.1) ∧ ∀ x ∈ g, x.2 ≠ clearedPixel

/-- The cell (r, c) lies in a square of side S (20_memory.md R61). -/
def inSquare (S r c : Nat) : Bool := decide (r < S) && decide (c < S)

/-- `MemRead({r, c}, 1)` (20_memory.md R63). -/
def memRead (s : State) (r c : Nat) : Pixel := gridRead s.grid (cellKey r c)

/-- `MemWrite({r, c}, 1, p)` (20_memory.md R64). -/
def memWrite (s : State) (r c : Nat) (p : Pixel) : State :=
  { s with grid := gridWrite s.grid (cellKey r c) p }

/-! ### Responses -/

/-- The three statuses a response can carry (30_encoding.md R98). -/
inductive Status where
  | ok
  | invalidVersion
  | fault
  deriving DecidableEq, Repr

/-- The 4-bit status code (30_encoding.md R98). -/
def statusCode : Status → BitVec 4
  | .ok => 0x0
  | .invalidVersion => 0x1
  | .fault => 0xF

/-- The response word, from the top status, twelve zeros, data (30_encoding.md R97). -/
def responseWord (st : Status) (data : RegWord) : ResponseWord :=
  statusCode st ++ (0 : BitVec 12) ++ data

/-- `respond(status, data)`: the response port shows the response of this command (30_encoding.md R81, R97). -/
def respond (st : Status) (data : RegWord) (s : State) : State :=
  { s with rsp := some (responseWord st data) }

/-! ### The two ways a command fails -/

/-- The causes of a fault (60_exceptions.md R236). -/
inductive FaultCause where
  | illegalCommand
  | sequence
  | bounds
  deriving DecidableEq, Repr

/-- The 2-bit cause that FCAUSE takes (10_state.md R29, 60_exceptions.md R236). -/
def causeCode : FaultCause → BitVec 2
  | .illegalCommand => 1
  | .sequence => 2
  | .bounds => 3

/-- `raise Fault(cause)`, the entry into the faulted state: FCAUSE takes the cause, the response is (FAULT, cause), and nothing
else changes (60_exceptions.md R236). It transfers control nowhere and has no return (R244, R245). -/
def raiseFault (cause : FaultCause) (s : State) : State :=
  respond .fault ((causeCode cause).setWidth 16) { s with fcause := causeCode cause }

/-- `raise InvalidVersion`: the plan is emptied, the grid ceases to exist, ERR becomes 1, the response is (INVALID_VERSION, 0)
(60_exceptions.md R231). -/
def raiseInvalidVersion (s : State) : State :=
  respond .invalidVersion 0
    { s with stage := 0, version := 0, size := 0, level := 0, maskId := 0, err := 1, grid := [] }

/-- What a faulted block answers a command it refuses: (FAULT, FCAUSE), with no state change (60_exceptions.md R237). -/
def refuseWhileFaulted (s : State) : State := respond .fault (s.fcause.setWidth 16) s

/-! ### The checks every command passes, in the order of 43_plan_sequencer_and_access.md R200 -/

/-- Step 1: a faulted block refuses the command (43_plan_sequencer_and_access.md R200). -/
def unlessFaulted (s : State) (go : Result) : Result :=
  if s.fcause = 0 then go else .next (refuseWhileFaulted s)

/-- Step 2 for a condition on the operands: an illegal command faults (43_plan_sequencer_and_access.md R200). -/
def requireLegal (legal : Bool) (s : State) (go : Result) : Result :=
  if legal then go else .next (raiseFault .illegalCommand s)

/-- Step 3 for a stage command: STAGE must be n (43_plan_sequencer_and_access.md R200, R201). -/
def requireStage (n : BitVec 3) (s : State) (go : Result) : Result :=
  if s.stage = n then go else .next (raiseFault .sequence s)

/-- Step 3 for a cell command: there must be a plan (43_plan_sequencer_and_access.md R200, R201). -/
def requirePlan (s : State) (go : Result) : Result :=
  if s.stage = 0 then .next (raiseFault .sequence s) else go

/-- Step 4: the cell must lie in the grid (43_plan_sequencer_and_access.md R200). -/
def requireCell (r c : Nat) (s : State) (go : Result) : Result :=
  if inSquare s.size.toNat r c then go else .next (raiseFault .bounds s)

/-- The version is one a plan can have (40_geometry_stamper.md R120). -/
def versionValid (v : BitVec 8) : Bool :=
  decide (Config.versionMin ≤ v.toNat) && decide (v.toNat ≤ Config.versionMax)

/-- Step 5: the version must be 1 to 40 (43_plan_sequencer_and_access.md R200). -/
def requireVersion (v : BitVec 8) (s : State) (go : Result) : Result :=
  if versionValid v then go else .next (raiseInvalidVersion s)

/-- Runs one stage after another inside a command (43_plan_sequencer_and_access.md R203). -/
def andThen (first : Result) (go : State → Result) : Result :=
  match first with
  | .next t => go t
  | .fault r => .fault r
  | .refused r => .refused r

/-- The outcome of an illegal command word (30_encoding.md R99, 43_plan_sequencer_and_access.md R200 steps 1 and 2). -/
def rejectCommand (s : State) : Result :=
  unlessFaulted s (.next (raiseFault .illegalCommand s))

/-! ### The ports -/

/-- Reset: every register 0, no grid, no response; the host's later moves are still to come (70_reset_and_hazards.md R260 to R262). -/
def resetMachine (later : List HostMove) : State := { State.reset with host := later }

/-- Nothing is offered: the block keeps all state and `rsp_valid` is low (60_exceptions.md R247, 30_encoding.md R80). -/
def idle (s : State) : State := { s with rsp := none }

/-- The state in which an accepted command executes: the host's later moves are still to come (30_encoding.md R81). -/
def accept (later : List HostMove) (s : State) : State := { s with host := later }

/-- The state in which the host offers a command word next (30_encoding.md R81). -/
def offer (w : CommandWord) (s : State) : State := { s with host := .command w :: s.host }

/-- The input port `cmd` with its `cmd_valid`: the word the host offers now (30_encoding.md R80). -/
def cmdPort (s : State) : Option CommandWord :=
  match s.host with
  | .command w :: _ => some w
  | .resetInFlight w :: _ => some w
  | _ => none

/-- The output `rsp_valid` (30_encoding.md R80). -/
def rspValid (s : State) : Bool := s.rsp.isSome

/-- The output `cmd_ready`: a step is one whole transaction, so between steps the block is ready (30_encoding.md R81, log entry 3). -/
def cmdReady (_ : State) : Bool := true

end Sys2Proof.Machine
end

