-- ==== Sys2Proof/Machine/Flags.lean ====
section
/-!
DEFINITION. The block's only flags are the `black` and `invert` bits of a pixel (10_state.md R37). Here is every computation of
one: the pattern colours of the stamper (40_geometry_stamper.md R122 to R125), the format bits (41_format_bch.md R155) and the
eight mask functions (42_mask_evaluator.md R180 to R188).
-/

namespace Sys2Proof.Machine

/-! ### `black` of a pattern cell -/

/-- `|a − b|` on naturals. -/
def distance (a b : Nat) : Nat := if a ≤ b then b - a else a - b

/-- The larger of the row and the column distance of a cell to a centre, which numbers the rings of a box (40_geometry_stamper.md R123, R125). -/
def ringOf (r c centreRow centreCol : Nat) : Nat := max (distance r centreRow) (distance c centreCol)

/-- `black` of the k-th cell of a timing strip: even cells (40_geometry_stamper.md R122). -/
def timingBlack (k : Nat) : Bool := k % 2 == 0

/-- `black` of the cell (dy, dx) of a finder box: all but the middle ring d = 2 (40_geometry_stamper.md R123). -/
def finderBlack (dy dx : Nat) : Bool := ringOf dy dx 3 3 != 2

/-- `black` of the cell (dy, dx) of an alignment box: all but the inner ring e = 1 (40_geometry_stamper.md R125). -/
def alignmentBlack (dy dx : Nat) : Bool := ringOf dy dx 2 2 != 1

/-! ### `black` and `invert` of a format cell -/

/-- `black` of the format cell of bit k (41_format_bch.md R155). -/
def formatBlack (cw : BitVec 15) (k : Nat) : Bool := cw.getLsbD k ^^ Config.formatXor.getLsbD k

/-- `invert` of the format cell of bit k (41_format_bch.md R155). -/
def formatInvert (k : Nat) : Bool := Config.formatXor.getLsbD k

/-! ### `invert` of a data or check cell: the eight mask functions of a row i and a column j -/

/-- Mask 0 (42_mask_evaluator.md R181). -/
def mask0 (i j : Nat) : Bool := (i + j) % 2 == 0

/-- Mask 1 (42_mask_evaluator.md R182). -/
def mask1 (i _j : Nat) : Bool := i % 2 == 0

/-- Mask 2 (42_mask_evaluator.md R183). -/
def mask2 (_i j : Nat) : Bool := j % 3 == 0

/-- Mask 3 (42_mask_evaluator.md R184). -/
def mask3 (i j : Nat) : Bool := (i + j) % 3 == 0

/-- Mask 4 (42_mask_evaluator.md R185). -/
def mask4 (i j : Nat) : Bool := (i / 2 + j / 3) % 2 == 0

/-- Mask 5 (42_mask_evaluator.md R186). -/
def mask5 (i j : Nat) : Bool := (i * j) % 2 + (i * j) % 3 == 0

/-- Mask 6 (42_mask_evaluator.md R187). -/
def mask6 (i j : Nat) : Bool := ((i * j) % 2 + (i * j) % 3) % 2 == 0

/-- Mask 7 (42_mask_evaluator.md R188). -/
def mask7 (i j : Nat) : Bool := ((i * j) % 3 + (i + j) % 2) % 2 == 0

/-- The formula a mask id selects (42_mask_evaluator.md R191). -/
def maskFormula (m : BitVec 3) (i j : Nat) : Bool :=
  match m.toFin with
  | 0 => mask0 i j
  | 1 => mask1 i j
  | 2 => mask2 i j
  | 3 => mask3 i j
  | 4 => mask4 i j
  | 5 => mask5 i j
  | 6 => mask6 i j
  | 7 => mask7 i j

/-- All eight formulas at once, bit k formula k (42_mask_evaluator.md R190). -/
def maskVector (i j : Nat) : BitVec 8 :=
  BitVec.ofBool (mask7 i j) ++ BitVec.ofBool (mask6 i j) ++ BitVec.ofBool (mask5 i j) ++ BitVec.ofBool (mask4 i j) ++
    BitVec.ofBool (mask3 i j) ++ BitVec.ofBool (mask2 i j) ++ BitVec.ofBool (mask1 i j) ++ BitVec.ofBool (mask0 i j)

end Sys2Proof.Machine
end

