-- ==== Sys2Proof/Machine/Operands.lean ====
section
/-!
DEFINITION. The operand forms (30_encoding.md R95): the register operand of RDREG and the cell operand of PXRD, PXWR and MEVAL.
The remaining operands are plain unsigned fields.
-/

namespace Sys2Proof.Machine

/-- DATABYTES, hardwired to zero (10_state.md R27). -/
def State.dataBytes (_ : State) : RegWord := 0

/-- CHECKBYTES, hardwired to zero (10_state.md R27). -/
def State.checkBytes (_ : State) : RegWord := 0

/-- BLOCKS, hardwired to zero (10_state.md R27). -/
def State.blocks (_ : State) : RegWord := 0

/-- `zext_16(x[n])`: the register of an index, zero-extended to 16 bits, or nothing for the reserved indices 14 and 15 (10_state.md R21). -/
def readReg (n : BitVec 4) (s : State) : Option RegWord :=
  match n.toNat with
  | 0 => some (s.stage.setWidth 16)
  | 1 => some (s.version.setWidth 16)
  | 2 => some (s.size.setWidth 16)
  | 3 => some (s.level.setWidth 16)
  | 4 => some (s.maskId.setWidth 16)
  | 5 => some s.dataBytes
  | 6 => some s.checkBytes
  | 7 => some s.blocks
  | 8 => some (s.err.setWidth 16)
  | 9 => some (s.fcause.setWidth 16)
  | 10 => some (s.fmtRaw.setWidth 16)
  | 11 => some (s.fmtDrawn.setWidth 16)
  | 12 => some (s.mvec.setWidth 16)
  | 13 => some (s.pxData.setWidth 16)
  | _ => none

/-- The 16-bit cell address of a row and a column operand (20_memory.md R60, 30_encoding.md R93). -/
def cellAddress (row col : BitVec 8) : BitVec 16 := row ++ col

end Sys2Proof.Machine
end

