-- ==== Sys2Proof/Machine/Format.lean ====
section
/-!
DEFINITION. The BCH(15,5) format encoder and the BCHENC and FMT commands (41_format_bch.md).
-/

namespace Sys2Proof.Machine

/-- lcode, the level's code in the format field: the ordinal with bit 0 flipped (30_encoding.md R88, 41_format_bch.md R151). -/
def levelCode (l : BitVec 2) : BitVec 2 := l ^^^ 1

/-- The five information bits, lcode above the mask id (41_format_bch.md R151). -/
def infoBits (l : BitVec 2) (m : BitVec 3) : BitVec 5 := levelCode l ++ m

/-- F, the information bits in bits 14 to 10 (41_format_bch.md R151). -/
def formatField (info : BitVec 5) : BitVec 15 := info.setWidth 15 <<< 10

/-- One step of the division: bit i of the running register decides (41_format_bch.md R152). -/
def bchStep (reg : BitVec 15) (i : Nat) : BitVec 15 :=
  if reg.getLsbD i then reg ^^^ (Config.bchGenerator <<< (i - 10)) else reg

/-- The running register after the five steps, from bit 14 down to bit 10 (41_format_bch.md R152). -/
def bchDivide (reg : BitVec 15) : BitVec 15 := [14, 13, 12, 11, 10].foldl bchStep reg

/-- rem, the 10-bit remainder (41_format_bch.md R152). -/
def bchRemainder (info : BitVec 5) : BitVec 10 := (bchDivide (formatField info)).extractLsb' 0 10

/-- cw, the code word of five information bits (41_format_bch.md R153). -/
def bchCodeWord (info : BitVec 5) : BitVec 15 := formatField info ||| (bchRemainder info).setWidth 15

/-- cw for a level and a mask id (41_format_bch.md R151 to R153). -/
def formatCodeWord (l : BitVec 2) (m : BitVec 3) : BitVec 15 := bchCodeWord (infoBits l m)

/-- drawn, the code word with 0x5412 flipped in (41_format_bch.md R155). -/
def formatDrawn (l : BitVec 2) (m : BitVec 3) : BitVec 15 := formatCodeWord l m ^^^ Config.formatXor

/-- p_k, the pixel of format bit k (41_format_bch.md R159). -/
def formatPixel (cw : BitVec 15) (k : Nat) : Pixel :=
  pix .format (formatBlack cw k) (formatInvert k) (BitVec.ofNat 4 k)

/-- The thirty writes, for each k first path A, then path B (41_format_bch.md R159). -/
def formatWrites (cells : FormatCells) (S : Nat) (cw : BitVec 15) : List Cell :=
  (List.range 15).flatMap fun k =>
    [(cellKey (cells S k).1.1 (cells S k).1.2, formatPixel cw k),
     (cellKey (cells S k).2.1 (cells S k).2.2, formatPixel cw k)]

/-- Every format cell of a table lies in a grid of side S (20_memory.md R64). -/
def formatCellsFit (cells : FormatCells) (S : Nat) : Bool :=
  (List.range 15).all fun k =>
    inSquare S (cells S k).1.1 (cells S k).1.2 && inSquare S (cells S k).2.1 (cells S k).2.2

/-- The encoder's results go to FMTRAW and FMTDRAWN (10_state.md R30, R31). -/
def recordFormat (l : BitVec 2) (m : BitVec 3) (s : State) : State :=
  { s with fmtRaw := formatCodeWord l m, fmtDrawn := formatDrawn l m }

/-- The effect of the format stage under the block's tables: the results, the thirty cells, STAGE 2 (41_format_bch.md R160). -/
def formatPlan (T : Tables) (l : BitVec 2) (m : BitVec 3) (s : State) : State :=
  { recordFormat l m s with
    grid := gridWrites (formatWrites T.cells s.size.toNat (formatCodeWord l m)) s.grid
    stage := 2 }

/-- The format stage (41_format_bch.md R160). A cell outside the grid is an access to an address that does not exist; with the default
tables no state a run reaches has one: log entry 7. -/
def runFormat (T : Tables) (l : BitVec 2) (m : BitVec 3) (s : State) : Result :=
  if formatCellsFit T.cells s.size.toNat then .next (formatPlan T l m s) else .fault .cellOutsideGrid

/-- `BCHENC lvl, m` (41_format_bch.md R157): allowed at every STAGE; responds FMTDRAWN. -/
def execBchenc (l : BitVec 2) (m : BitVec 3) (s : State) : Result :=
  unlessFaulted s <|
  .next (respond .ok ((formatDrawn l m).setWidth 16) (recordFormat l m s))

/-- `FMT lvl, m` (41_format_bch.md R160) on a block with any tables (00_scope.md R9): requires STAGE 1; responds FMTDRAWN. -/
def execFmtWith (T : Tables) (l : BitVec 2) (m : BitVec 3) (s : State) : Result :=
  unlessFaulted s <|
  requireStage 1 s <|
  andThen (runFormat T l m s) fun t =>
  .next (respond .ok ((formatDrawn l m).setWidth 16) t)

/-- `FMT lvl, m` on the block with the default tables. -/
def execFmt (l : BitVec 2) (m : BitVec 3) (s : State) : Result := execFmtWith Config.tables l m s

end Sys2Proof.Machine
end

