-- ==== Sys2Proof/Machine/Geometry.lean ====
section
/-!
DEFINITION. The pattern stamper and the GEOM command (40_geometry_stamper.md). Each of the four steps is the list of its
writes, in the spec's order; a later write to a cell wins (R129).
-/

namespace Sys2Proof.Machine

/-- SIZE(v), the side of the grid (40_geometry_stamper.md R120). -/
def planSize (v : Nat) : Nat := 4 * v + 17

/-- All pairs of a row and a column offset below n, row by row. -/
def squareOffsets (n : Nat) : List (Nat × Nat) :=
  (List.range n).flatMap fun dy => (List.range n).map fun dx => (dy, dx)

/-- A write of a pattern cell, with `invert` 0 and offset 0 (40_geometry_stamper.md R122 to R125). -/
def patternWrite (role : Role) (black : Bool) (r c : Nat) : Cell :=
  (cellKey r c, pix role black false 0)

/-- Step 2: row 6, then column 6, over the full side (40_geometry_stamper.md R122). -/
def timingWrites (S : Nat) : List Cell :=
  (List.range S).map (fun k => patternWrite .timing (timingBlack k) 6 k) ++
    (List.range S).map (fun k => patternWrite .timing (timingBlack k) k 6)

/-- Step 3, one 7 by 7 finder box with top-left cell (y, x) (40_geometry_stamper.md R123). -/
def finderWrites (y x : Nat) : List Cell :=
  (squareOffsets 7).map fun d => patternWrite .position (finderBlack d.1 d.2) (y + d.1) (x + d.2)

/-- The cell at offset (dy − 1, dx − 1) of the box with top-left cell (y, x), for dy and dx from 0 to 8, is one of the box's light border:
outside the 7 by 7 box and inside the grid (40_geometry_stamper.md R124). -/
def isBorderCell (S y x : Nat) (d : Nat × Nat) : Bool :=
  !(decide (1 ≤ d.1 ∧ d.1 ≤ 7) && decide (1 ≤ d.2 ∧ d.2 ≤ 7)) &&
    (decide (1 ≤ y + d.1) && decide (1 ≤ x + d.2) && inSquare S (y + d.1 - 1) (x + d.2 - 1))

/-- Step 3, the light border of the box with top-left cell (y, x) (40_geometry_stamper.md R124). -/
def borderWrites (S y x : Nat) : List Cell :=
  ((squareOffsets 9).filter (isBorderCell S y x)).map fun d =>
    patternWrite .position false (y + d.1 - 1) (x + d.2 - 1)

/-- The top-left cells of the three finder boxes (40_geometry_stamper.md R123). -/
def finderCorners (S : Nat) : List (Nat × Nat) := [(0, 0), (0, S - 7), (S - 7, 0)]

/-- Step 3: the three finder boxes, each with its border (40_geometry_stamper.md R123, R124). -/
def positionWrites (S : Nat) : List Cell :=
  (finderCorners S).flatMap fun q => finderWrites q.1 q.2 ++ borderWrites S q.1 q.2

/-- Step 4, one 5 by 5 alignment box with top-left cell (y, x) (40_geometry_stamper.md R125). -/
def alignmentWrites (y x : Nat) : List Cell :=
  (squareOffsets 5).map fun d => patternWrite .alignment (alignmentBlack d.1 d.2) (y + d.1) (x + d.2)

/-- The axis walk from position x (40_geometry_stamper.md R126). The fuel bounds the walk for a table under which it would never end;
with the default table, and under any table where the walk ends, it never runs out. DESIGN CHOICE: log entry 8. -/
def axisWalk (S apos astride : Nat) : Nat → Nat → List Nat
  | 0, _ => []
  | fuel + 1, x =>
    if x ≤ S - 9 then x :: axisWalk S apos astride fuel (if x = 4 then apos else x + astride)
    else []

/-- A(v), the axis positions of a version under a table (40_geometry_stamper.md R126). -/
def axisPositions (table : AlignTable) (v : Nat) : List Nat :=
  axisWalk (planSize v) (table v).1 (table v).2 (planSize v) 4

/-- `skip(y, x)`: the candidate's footprint shares a cell with an 8 by 8 corner zone (40_geometry_stamper.md R128). -/
def boxSkipped (S y x : Nat) : Bool :=
  (decide (y ≤ 7) && decide (x ≤ 7)) || (decide (y ≤ 7) && decide (S - 8 ≤ x + 4)) ||
    (decide (S - 8 ≤ y + 4) && decide (x ≤ 7))

/-- P(v), the placed candidates: all pairs of positions that are not skipped (40_geometry_stamper.md R126, R128), row by row.
The order shows only under a table whose boxes overlap. DESIGN CHOICE: log entry 12. -/
def placedBoxes (table : AlignTable) (v : Nat) : List (Nat × Nat) :=
  let axis := axisPositions table v
  (axis.flatMap fun y => axis.map fun x => (y, x)).filter fun q => !boxSkipped (planSize v) q.1 q.2

/-- Step 4: the placed alignment boxes (40_geometry_stamper.md R125 to R128), in the order of `placedBoxes`, so that a later box wins
where boxes overlap, which none does under the default table (R129). DESIGN CHOICE: log entry 12. -/
def alignmentStep (table : AlignTable) (v : Nat) : List Cell :=
  (placedBoxes table v).flatMap fun q => alignmentWrites q.1 q.2

/-- Step 1: a freshly allocated grid, every cell the cleared pixel, so nothing is listed (40_geometry_stamper.md R121). -/
def allocatedGrid : Grid := []

/-- The grid after the four steps for a version under a table (40_geometry_stamper.md R121 to R129). -/
def stampedGrid (table : AlignTable) (v : Nat) : Grid :=
  gridWrites (timingWrites (planSize v) ++ positionWrites (planSize v) ++ alignmentStep table v) allocatedGrid

/-- The effect of the geometry stage under the block's tables, for a valid version: a new plan at STAGE 1 (40_geometry_stamper.md R131). -/
def runGeometry (T : Tables) (v : BitVec 8) (s : State) : State :=
  { s with
    version := v.setWidth 6
    size := BitVec.ofNat 8 (planSize v.toNat)
    level := 0
    maskId := 0
    err := 0
    grid := stampedGrid T.align v.toNat
    stage := 1 }

/-- `GEOM v` (40_geometry_stamper.md R131) on a block with any tables (00_scope.md R9): allowed at every STAGE; responds the new SIZE. -/
def execGeomWith (T : Tables) (v : BitVec 8) (s : State) : Result :=
  unlessFaulted s <|
  requireVersion v s <|
  .next (respond .ok (BitVec.ofNat 16 (planSize v.toNat)) (runGeometry T v s))

/-- `GEOM v` on the block with the default tables. -/
def execGeom (v : BitVec 8) (s : State) : Result := execGeomWith Config.tables v s

end Sys2Proof.Machine
end

