-- ==== Sys2Proof/Machine/Mask.lean ====
section
/-!
DEFINITION. The mask evaluator and applicator, and the MEVAL and MASK commands (42_mask_evaluator.md).
-/

namespace Sys2Proof.Machine

/-- The new pixel of the cell (i, j) under mask m: a data or check cell gets `invert` assigned, any other is kept (42_mask_evaluator.md R191). -/
def maskPixel (m : BitVec 3) (i j : Nat) (p : Pixel) : Pixel :=
  if pixIsPayload p then pixAssignInvert p (maskFormula m i j) else p

/-- The update of one listed cell, which lies in the grid or is left alone (42_mask_evaluator.md R191). -/
def maskCell (m : BitVec 3) (S : Nat) (x : Cell) : Cell :=
  if inSquare S (keyRow x.1) (keyCol x.1) then (x.1, maskPixel m (keyRow x.1) (keyCol x.1) x.2) else x

/-- The update of all cells at once (42_mask_evaluator.md R191, R192). An unlisted cell has role none and is not written.
DEDUCED, safe: log entry 9. -/
def maskGrid (m : BitVec 3) (S : Nat) (g : Grid) : Grid := g.map (maskCell m S)

/-- The effect of the mask stage: the cells, MASKID, STAGE 4 (42_mask_evaluator.md R191). -/
def runMask (m : BitVec 3) (s : State) : State :=
  { s with grid := maskGrid m s.size.toNat s.grid, maskId := m, stage := 4 }

/-- `MEVAL i, j` (42_mask_evaluator.md R190): allowed at every STAGE; responds MVEC. -/
def execMeval (i j : BitVec 8) (s : State) : Result :=
  unlessFaulted s <|
  .next (respond .ok ((maskVector i.toNat j.toNat).setWidth 16) { s with mvec := maskVector i.toNat j.toNat })

/-- `MASK m` (42_mask_evaluator.md R191): requires STAGE 3; responds 0. -/
def execMask (m : BitVec 3) (s : State) : Result :=
  unlessFaulted s <|
  requireStage 3 s <|
  .next (respond .ok 0 (runMask m s))

end Sys2Proof.Machine
end

