-- ==== Sys2Proof/Machine/Plan.lean ====
section
/-!
DEFINITION. The plan sequencer's BUILD and LVL, and the access commands PXRD, PXWR and RDREG (43_plan_sequencer_and_access.md).
-/

namespace Sys2Proof.Machine

/-- The effect of the level stage: LEVEL and STAGE 3 (43_plan_sequencer_and_access.md R205, R206). -/
def runLevel (l : BitVec 2) (s : State) : State := { s with level := l, stage := 3 }

/-- `LVL lvl` (43_plan_sequencer_and_access.md R206): requires STAGE 2; responds 0. -/
def execLvl (l : BitVec 2) (s : State) : Result :=
  unlessFaulted s <|
  requireStage 2 s <|
  .next (respond .ok 0 (runLevel l s))

/-- `BUILD v, lvl, m` (43_plan_sequencer_and_access.md R203) on a block with any tables (00_scope.md R9): the four stages in one command; responds SIZE. -/
def execBuildWith (T : Tables) (v : BitVec 8) (l : BitVec 2) (m : BitVec 3) (s : State) : Result :=
  unlessFaulted s <|
  requireVersion v s <|
  andThen (runFormat T l m (runGeometry T v s)) fun t =>
  .next (respond .ok (t.size.setWidth 16) { runMask m (runLevel l t) with err := 0 })

/-- `BUILD v, lvl, m` on the block with the default tables. -/
def execBuild (v : BitVec 8) (l : BitVec 2) (m : BitVec 3) (s : State) : Result := execBuildWith Config.tables v l m s

/-- `PXRD r, c` (43_plan_sequencer_and_access.md R208): requires a plan and a cell of the grid; responds the pixel. -/
def execPxrd (r c : BitVec 8) (s : State) : Result :=
  unlessFaulted s <|
  requirePlan s <|
  requireCell r.toNat c.toNat s <|
  .next (respond .ok ((memRead s r.toNat c.toNat).setWidth 16) { s with pxData := memRead s r.toNat c.toNat })

/-- `PXWR r, c, pix` (43_plan_sequencer_and_access.md R210): a legal pixel, a plan and a cell of the grid; responds 0. -/
def execPxwr (r c : BitVec 8) (p : Pixel) (s : State) : Result :=
  unlessFaulted s <|
  requireLegal (pixLegal p) s <|
  requirePlan s <|
  requireCell r.toNat c.toNat s <|
  .next (respond .ok 0 (memWrite s r.toNat c.toNat p))

/-- `RDREG name` (43_plan_sequencer_and_access.md R212): completes also while the block is faulted; changes no state. -/
def execRdreg (n : BitVec 4) (s : State) : Result :=
  match readReg n s with
  | some x => .next (respond .ok x s)
  | none => rejectCommand s

end Sys2Proof.Machine
end

