-- ==== Sys2Proof/Machine/Dispatch.lean ====
section
/-!
DEFINITION. The dispatch of a command to its meaning, one arm per row of opcode_table.json.
-/

namespace Sys2Proof.Machine

def exec (i : Instr) (s : State) : Host.Outcome State Fault Refusal :=
  match i with
  | .build v l m => Sys2Proof.Machine.execBuild v l m s
  | .geom v => Sys2Proof.Machine.execGeom v s
  | .fmt l m => Sys2Proof.Machine.execFmt l m s
  | .lvl l => Sys2Proof.Machine.execLvl l s
  | .mask m => Sys2Proof.Machine.execMask m s
  | .bchenc l m => Sys2Proof.Machine.execBchenc l m s
  | .meval r c => Sys2Proof.Machine.execMeval r c s
  | .pxrd r c => Sys2Proof.Machine.execPxrd r c s
  | .pxwr r c p => Sys2Proof.Machine.execPxwr r c p s
  | .rdreg n => Sys2Proof.Machine.execRdreg n s

end Sys2Proof.Machine
end

