-- ==== Sys2Proof/Machine/Command.lean ====
section
/-!
DEFINITION. A command word run to completion, and the block's answer to the host's next move (30_encoding.md R81,
43_plan_sequencer_and_access.md R200), for any way to execute a command; and the machine on a block with any tables (00_scope.md R9),
of which `exec` and `step` are the case of the default tables.
-/

namespace Sys2Proof.Machine

/-- One accepted command word, decoded and executed by `execute`; an illegal word is rejected as 43_plan_sequencer_and_access.md R200 says. -/
def runCommandBy (execute : Instr → State → Result) (w : CommandWord) (s : State) : Result :=
  match decode w with
  | .ok i => execute i s
  | .error _ => rejectCommand s

/-- One step (30_encoding.md R81): a command runs to completion, a reset resets (70_reset_and_hazards.md R260), also one that
abandons a command in flight (R262), and with nothing offered the block idles (60_exceptions.md R247). -/
def stepBy (execute : Instr → State → Result) (s : State) : Result :=
  match s.host with
  | [] => .next (idle s)
  | .command w :: later => runCommandBy execute w (accept later s)
  | .reset :: later => .next (resetMachine later)
  | .resetInFlight _ :: later => .next (resetMachine later)

/-- One accepted command word on the block with the default tables. -/
def runCommand (w : CommandWord) (s : State) : Result := runCommandBy exec w s

/-- A command executed on a block with the tables `T` (00_scope.md R9): three commands use a table, the others none. -/
def execWith (T : Tables) (i : Instr) (s : State) : Result :=
  match i with
  | .build v l m => execBuildWith T v l m s
  | .geom v => execGeomWith T v s
  | .fmt l m => execFmtWith T l m s
  | .lvl l => execLvl l s
  | .mask m => execMask m s
  | .bchenc l m => execBchenc l m s
  | .meval r c => execMeval r c s
  | .pxrd r c => execPxrd r c s
  | .pxwr r c p => execPxwr r c p s
  | .rdreg n => execRdreg n s

/-- One accepted command word on a block with the tables `T` (00_scope.md R9). -/
def runCommandWith (T : Tables) (w : CommandWord) (s : State) : Result := runCommandBy (execWith T) w s

/-- One step of a block with the tables `T` (00_scope.md R9). -/
def stepWith (T : Tables) (s : State) : Result := stepBy (execWith T) s

end Sys2Proof.Machine
end

