-- ==== Sys2Proof/Machine/Step.lean ====
section
/-!
DEFINITION. One step: the host's next move and the block's whole answer to it (30_encoding.md R81, 43_plan_sequencer_and_access.md R200).
-/

namespace Sys2Proof.Machine

/-- One step of the block with the default tables (30_encoding.md R81, 43_plan_sequencer_and_access.md R200). -/
def step (s : State) : Host.Outcome State Fault Refusal := stepBy exec s

/-- The state with this command word offered next, so that the next step runs it (30_encoding.md R81, log entry 3). -/
def State.withFetchWord (s : State) (nbits w : Nat) : State :=
  offer (BitVec.ofNat 32 (w % 2 ^ nbits)) s

end Sys2Proof.Machine
end

