-- ==== Sys2Proof/Safety.lean ====
section
/-!
DEFINITION. What a safe run is and the terms in which claims are made: the invariant of the machine's states, the illegal words
of 30_encoding.md R99, the closed form of the geometry, the table of the 32 format words, and who writes which register.
-/

namespace Sys2Proof.Machine

/-- The step answers a next state: the block never hangs (70_reset_and_hazards.md R265). -/
def Continues (s : State) : Prop := ∃ t, step s = .next t

/-- The invariant of the machine's states: the ranges and relations 10_state.md gives its registers and the grid. -/
structure Inv (s : State) : Prop where
  /-- STAGE is one of the five stages (10_state.md R22). -/
  stage_legal : s.stage.toNat ≤ 4
  /-- Without a plan the plan registers are zero and no cell exists (10_state.md R22, R24, R35). -/
  no_plan : s.stage = 0 → s.version = 0 ∧ s.size = 0 ∧ s.grid = []
  /-- With a plan the version is 1 to 40 and SIZE is 4·VERSION + 17 (10_state.md R23, R24). -/
  plan_shape : s.stage ≠ 0 → 1 ≤ s.version.toNat ∧ s.version.toNat ≤ 40 ∧ s.size.toNat = planSize s.version.toNat
  /-- A plan whose level stage has not run has LEVEL 0 (10_state.md R25). -/
  level_pending : s.stage.toNat < 3 → s.level = 0
  /-- A plan whose mask stage has not run has MASKID 0 (10_state.md R26). -/
  mask_pending : s.stage.toNat < 4 → s.maskId = 0
  /-- ERR is 0, or 1 after a failed GEOM or BUILD, which leaves no plan (10_state.md R28, 60_exceptions.md R231). -/
  err_legal : s.err = 0 ∨ s.err = 1 ∧ s.stage = 0
  /-- FMTRAW is one of the 32 code words (10_state.md R30). -/
  raw_is_code : ∃ info, s.fmtRaw = bchCodeWord info
  /-- FMTDRAWN is FMTRAW with 0x5412 flipped in, or both still hold no result (10_state.md R31). -/
  drawn_of_raw : s.fmtDrawn = s.fmtRaw ^^^ 0x5412 ∨ s.fmtRaw = 0 ∧ s.fmtDrawn = 0
  /-- PXDATA is a legal pixel (10_state.md R21). -/
  pxdata_legal : pixLegal s.pxData = true
  /-- The grid's list is canonical (log entry 5). -/
  grid_canonical : gridWf s.grid
  /-- Only cells of the SIZE × SIZE square are held (10_state.md R35). -/
  grid_inside : ∀ x ∈ s.grid, inSquare s.size.toNat (keyRow x.1) (keyCol x.1) = true
  /-- Every pixel held is legal (30_encoding.md R87). -/
  grid_legal : ∀ x ∈ s.grid, pixLegal x.2 = true

/-- A command word is illegal, the four cases of 30_encoding.md R99 read off the formats of R92 to R94. -/
def illegalWord (w : CommandWord) : Bool :=
  let zeroP := w.extractLsb' 13 15
  match (opField w).toNat with
  | 1 => zeroP != 0
  | 2 => zeroP != 0 || maskField w != 0 || levelField w != 0
  | 3 => zeroP != 0 || versionField w != 0
  | 4 => zeroP != 0 || maskField w != 0 || versionField w != 0
  | 5 => zeroP != 0 || levelField w != 0 || versionField w != 0
  | 6 => zeroP != 0 || versionField w != 0
  | 7 => w.extractLsb' 25 3 != 0 || pixField w != 0
  | 8 => w.extractLsb' 25 3 != 0 || pixField w != 0
  | 9 => w.extractLsb' 25 3 != 0 || pixRole (pixField w) == 7
  | 10 => w.extractLsb' 4 24 != 0 || decide (14 ≤ (regField w).toNat)
  | _ => true

/-- The pixel at ring d of a corner zone, the box and its border: black for d = 0, 1, 3 (40_geometry_stamper.md R130 case 2). -/
def zonePixel (d : Nat) : Pixel := pix .position (decide (d ≤ 3) && d != 2) false 0

/-- The footprint of the box with least cell (y, x) covers (r, c) (40_geometry_stamper.md R126). -/
def boxCovers (r c : Nat) (q : Nat × Nat) : Bool :=
  decide (q.1 ≤ r ∧ r ≤ q.1 + 4) && decide (q.2 ≤ c ∧ c ≤ q.2 + 4)

/-- The closed form of the geometry outside the alignment boxes (40_geometry_stamper.md R130 cases 2 to 5). -/
def closedBase (S r c : Nat) : Pixel :=
  if r ≤ 7 ∧ c ≤ 7 then zonePixel (ringOf r c 3 3)
  else if r ≤ 7 ∧ S - 8 ≤ c then zonePixel (ringOf r c 3 (S - 4))
  else if S - 8 ≤ r ∧ c ≤ 7 then zonePixel (ringOf r c (S - 4) 3)
  else if r = 6 then pix .timing (c % 2 == 0) false 0
  else if c = 6 then pix .timing (r % 2 == 0) false 0
  else clearedPixel

/-- The closed form of the geometry (40_geometry_stamper.md R130). -/
def closedPixel (table : AlignTable) (v r c : Nat) : Pixel :=
  match (placedBoxes table v).find? (boxCovers r c) with
  | some q => pix .alignment (ringOf r c (q.1 + 2) (q.2 + 2) != 1) false 0
  | none => closedBase (planSize v) r c

/-- The 32 code words of 41_format_bch.md R156, levels L, M, Q, H, eight mask ids each. -/
def formatCodeTable : List Nat :=
  [0x23D6, 0x26E1, 0x29B8, 0x2C8F, 0x323D, 0x370A, 0x3853, 0x3D64] ++
  [0x0000, 0x0537, 0x0A6E, 0x0F59, 0x11EB, 0x14DC, 0x1B85, 0x1EB2] ++
  [0x614D, 0x647A, 0x6B23, 0x6E14, 0x70A6, 0x7591, 0x7AC8, 0x7FFF] ++
  [0x429B, 0x47AC, 0x48F5, 0x4DC2, 0x5370, 0x5647, 0x591E, 0x5C29]

/-- The 32 drawn words of 41_format_bch.md R156, in the same order. -/
def formatDrawnTable : List Nat :=
  [0x77C4, 0x72F3, 0x7DAA, 0x789D, 0x662F, 0x6318, 0x6C41, 0x6976] ++
  [0x5412, 0x5125, 0x5E7C, 0x5B4B, 0x45F9, 0x40CE, 0x4F97, 0x4AA0] ++
  [0x355F, 0x3068, 0x3F31, 0x3A06, 0x24B4, 0x2183, 0x2EDA, 0x2BED] ++
  [0x1689, 0x13BE, 0x1CE7, 0x19D0, 0x0762, 0x0255, 0x0D0C, 0x083B]

/-- The code word that 41_format_bch.md R156 lists for a level and a mask id. -/
def listedCode (l : BitVec 2) (m : BitVec 3) : BitVec 15 := BitVec.ofNat 15 (formatCodeTable.getD (8 * l.toNat + m.toNat) 0)

/-- The drawn word that 41_format_bch.md R156 lists for a level and a mask id. -/
def listedDrawn (l : BitVec 2) (m : BitVec 3) : BitVec 15 := BitVec.ofNat 15 (formatDrawnTable.getD (8 * l.toNat + m.toNat) 0)

/-- The command is BUILD or GEOM (10_state.md R21: the writers of VERSION, SIZE and ERR). -/
def startsPlan : Instr → Bool
  | .build _ _ _ => true
  | .geom _ => true
  | .fmt _ _ => false
  | .lvl _ => false
  | .mask _ => false
  | .bchenc _ _ => false
  | .meval _ _ => false
  | .pxrd _ _ => false
  | .pxwr _ _ _ => false
  | .rdreg _ => false

/-- The command is LVL (10_state.md R21). -/
def isLvl : Instr → Bool
  | .lvl _ => true
  | _ => false

/-- The command is MASK (10_state.md R21). -/
def isMask : Instr → Bool
  | .mask _ => true
  | _ => false

/-- The command is FMT (10_state.md R21). -/
def isFmt : Instr → Bool
  | .fmt _ _ => true
  | _ => false

/-- The command is BUILD (10_state.md R21). -/
def isBuild : Instr → Bool
  | .build _ _ _ => true
  | _ => false

/-- The command is BCHENC (10_state.md R21). -/
def isBchenc : Instr → Bool
  | .bchenc _ _ => true
  | _ => false

/-- The command is MEVAL (10_state.md R21). -/
def isMeval : Instr → Bool
  | .meval _ _ => true
  | _ => false

/-- The command is PXRD (10_state.md R21). -/
def isPxrd : Instr → Bool
  | .pxrd _ _ => true
  | _ => false

/-- The command is PXWR (20_memory.md R62). -/
def isPxwr : Instr → Bool
  | .pxwr _ _ _ => true
  | _ => false

end Sys2Proof.Machine
end

