-- ==== Sys2Proof/Certificates/Slice0/Obligations.lean ====
section
/-!
DEFINITION. The statements about the machine, made from the numbered rules of spec/. None is about a program. A statement that
rests on a default table (log entries 1 and 2) says so.
-/

open Sys2Proof Sys2Proof.Machine

/-! ### Reset, the ports, the step -/

/-- 10_state.md R41: after reset every register holds 0 and there is no grid. -/
def Obligations.ResetClearsEveryRegister : Prop :=
  (∀ n : BitVec 4, n.toNat < 14 → readReg n State.reset = some 0) ∧ State.reset.stage = 0 ∧ State.reset.grid = []

/-- 70_reset_and_hazards.md R260, R262: a reset, between commands or with one in flight, gives the reset state from any state, with
no response. That the host's later moves are kept is the model's own choice (log entry 3). -/
def Obligations.ResetFromAnyState : Prop :=
  ∀ (s : State) (later : List HostMove) (w : CommandWord),
    (s.host = .reset :: later ∨ s.host = .resetInFlight w :: later) →
      step s = .next { State.reset with host := later } ∧ State.reset.rsp = none

/-- 60_exceptions.md R247: between commands the block keeps all state. That a response is shown for one step is the model's choice
(log entry 4). -/
def Obligations.IdleKeepsAllState : Prop :=
  ∀ s : State, s.host = [] → step s = .next { s with rsp := none }

/-- 30_encoding.md R81, 43_plan_sequencer_and_access.md R200: a command word that decodes to a command is executed as that command, and any
other word is rejected, on the state from which the host's move is taken (log entry 3). -/
def Obligations.StepRunsDecodedCommand : Prop :=
  ∀ (s : State) (w : CommandWord) (later : List HostMove), s.host = .command w :: later →
    (∀ i, decode w = .ok i → wellFormed i = true → step s = exec i { s with host := later }) ∧
    (∀ e, decode w = .error e → step s = .next
      (if s.fcause = 0 then { s with host := later, fcause := 1, rsp := some 0xF0000001 }
        else { s with host := later, rsp := some (responseWord .fault (s.fcause.setWidth 16)) }))

/-- 30_encoding.md R81: a command leaves exactly one response. That a step takes one move of the host's list is the model's choice (log
entry 3), and so is that no response is shown after a step that took another move or none (log entry 4). -/
def Obligations.StepTakesOneMove : Prop :=
  ∀ s t : State, step s = .next t →
    t.host = s.host.tail ∧ (t.rsp.isSome = true ↔ ∃ w later, s.host = .command w :: later)

/-! ### Encoding -/

/-- 95_test_vectors.md section 2.1 and 30_encoding.md R96: one word of every command, written out from its format. -/
def Obligations.ListedWordsDecode : Prop :=
  decode 0x10001F28 = .ok (.build 40 3 7) ∧ decode 0x20000028 = .ok (.geom 40) ∧ decode 0x30001F00 = .ok (.fmt 3 7) ∧
  decode 0x40000300 = .ok (.lvl 3) ∧ decode 0x50001C00 = .ok (.mask 7) ∧ decode 0x60001F00 = .ok (.bchenc 3 7) ∧
  decode 0x7000FFFF = .ok (.meval 255 255) ∧ decode 0x8000B0B0 = .ok (.pxrd 176 176) ∧
  decode 0x91FB1414 = .ok (.pxwr 20 20 0x1FB) ∧ decode 0xA000000D = .ok (.rdreg 13)

/-- 30_encoding.md R92 to R96: every command that some legal word carries is decoded from its own encoding, with every operand at every value. -/
def Obligations.DecodeOfEncode : Prop :=
  ∀ i : Instr, wellFormed i = true → decode (encode i) = .ok i

/-- 30_encoding.md R100: every command word either selects exactly one command or is illegal by R99. -/
def Obligations.EveryWordIsOneCommandOrIllegal : Prop :=
  ∀ w : CommandWord,
    (illegalWord w = true ∧ ∃ e, decode w = .error e) ∨
    (illegalWord w = false ∧
      ∃ i, decode w = .ok i ∧ wellFormed i = true ∧ encode i = w ∧ ∀ j, wellFormed j = true → encode j = w → j = i)

/-- 30_encoding.md R99, 60_exceptions.md R240: every illegal command word raises Fault(ILLEGAL_COMMAND) and changes no other state. -/
def Obligations.IllegalWordFaults : Prop :=
  illegalWord 0x00000000 = true ∧ illegalWord 0xFFFFFFFF = true ∧
  ∀ (s : State) (w : CommandWord), s.fcause = 0 → illegalWord w = true →
    runCommand w s = .next { s with fcause := 1, rsp := some 0xF0000001 }

/-- 30_encoding.md R84: the four fields of a pixel are disjoint, so the union of the shifted fields is the pixel, each field is read back,
and setting `black` or `invert` is the union with 1 or 2. -/
def Obligations.PixelFieldsAreDisjoint : Prop :=
  ∀ (role : Role) (b i : Bool) (o : BitVec 4),
    pix role b i o = (BitVec.ofBool b).setWidth 9 ||| ((BitVec.ofBool i).setWidth 9 <<< 1) |||
      ((roleCode role).setWidth 9 <<< 2) ||| (o.setWidth 9 <<< 5) ∧
    pixBlack (pix role b i o) = b ∧ pixInvert (pix role b i o) = i ∧ pixRole (pix role b i o) = roleCode role ∧
    pixOffset (pix role b i o) = o ∧
    pix role true i o = pix role b i o ||| 1 ∧ pix role b true o = pix role b i o ||| 2

/-! ### Faults and the typed error -/

/-- 60_exceptions.md R237: while FCAUSE is not 0 every command but a legal RDREG answers (FAULT, FCAUSE) and changes nothing, a legal
RDREG reads normally, and only reset leaves the state. -/
def Obligations.FaultedStateIsSticky : Prop :=
  ∀ s : State, s.fcause ≠ 0 →
    (∀ w, (∀ n, decode w ≠ .ok (.rdreg n)) →
      runCommand w s = .next { s with rsp := some (responseWord .fault (s.fcause.setWidth 16)) }) ∧
    (∀ w n, decode w = .ok (.rdreg n) →
      ∃ x, readReg n s = some x ∧ runCommand w s = .next { s with rsp := some (responseWord .ok x) }) ∧
    (∀ t, step s = .next t → t.fcause ≠ s.fcause →
      ∃ later w, (s.host = .reset :: later ∨ s.host = .resetInFlight w :: later) ∧ t = { State.reset with host := later })

/-- 60_exceptions.md R238: a command whose STAGE requirement is not met raises Fault(SEQUENCE) and nothing else changes. -/
def Obligations.StageOutOfOrderFaults : Prop :=
  ∀ s : State, s.fcause = 0 →
    (∀ l m, s.stage ≠ 1 → exec (.fmt l m) s = .next { s with fcause := 2, rsp := some 0xF0000002 }) ∧
    (∀ l, s.stage ≠ 2 → exec (.lvl l) s = .next { s with fcause := 2, rsp := some 0xF0000002 }) ∧
    (∀ m, s.stage ≠ 3 → exec (.mask m) s = .next { s with fcause := 2, rsp := some 0xF0000002 }) ∧
    (∀ r c, s.stage = 0 → exec (.pxrd r c) s = .next { s with fcause := 2, rsp := some 0xF0000002 }) ∧
    (∀ r c p, pixLegal p = true → s.stage = 0 →
      exec (.pxwr r c p) s = .next { s with fcause := 2, rsp := some 0xF0000002 })

/-- 60_exceptions.md R239: PXRD and PXWR of a cell outside the grid raise Fault(BOUNDS) and nothing else changes; MEVAL never does. -/
def Obligations.CellOutsideGridFaults : Prop :=
  (∀ (s : State) (r c : BitVec 8), s.fcause = 0 → s.stage ≠ 0 → (s.size.toNat ≤ r.toNat ∨ s.size.toNat ≤ c.toNat) →
    exec (.pxrd r c) s = .next { s with fcause := 3, rsp := some 0xF0000003 } ∧
    ∀ p, pixLegal p = true → exec (.pxwr r c p) s = .next { s with fcause := 3, rsp := some 0xF0000003 }) ∧
  ∀ (s t : State) (i j : BitVec 8), exec (.meval i j) s = .next t → t.fcause = s.fcause

/-- 60_exceptions.md R231: a GEOM or BUILD whose version is not 1 to 40 empties the plan and sets ERR, nothing else changes, and no other
command raises InvalidVersion. -/
def Obligations.InvalidVersionEmptiesPlan : Prop :=
  (∀ (s : State) (v : BitVec 8) (l : BitVec 2) (m : BitVec 3), s.fcause = 0 → (v.toNat < 1 ∨ 40 < v.toNat) →
    exec (.geom v) s = .next { s with
      stage := 0, version := 0, size := 0, level := 0, maskId := 0, err := 1, grid := [], rsp := some 0x10000000 } ∧
    exec (.build v l m) s = .next { s with
      stage := 0, version := 0, size := 0, level := 0, maskId := 0, err := 1, grid := [], rsp := some 0x10000000 }) ∧
  ∀ (i : Instr) (s t : State), exec i s = .next t → t.rsp = some 0x10000000 →
    ∃ v : BitVec 8, (v.toNat < 1 ∨ 40 < v.toNat) ∧ (i = .geom v ∨ ∃ l m, i = .build v l m)

/-- 60_exceptions.md R232: after InvalidVersion the block is not faulted, and a valid GEOM or BUILD succeeds and sets ERR back to 0. -/
def Obligations.InvalidVersionIsRecoverable : Prop :=
  ∀ (s t : State) (v v' : BitVec 8) (l : BitVec 2) (m : BitVec 3), s.fcause = 0 → (v.toNat < 1 ∨ 40 < v.toNat) →
    1 ≤ v'.toNat → v'.toNat ≤ 40 → exec (.geom v) s = .next t →
      t.fcause = 0 ∧ (∃ u, exec (.geom v') t = .next u ∧ u.err = 0 ∧ u.stage = 1) ∧
      ∃ u, exec (.build v' l m) t = .next u ∧ u.err = 0 ∧ u.stage = 4

/-- 60_exceptions.md R243: the order of the conditions, faulted, ILLEGAL_COMMAND, SEQUENCE, BOUNDS, InvalidVersion: a faulted block first;
a PXWR of role 7 is illegal at every STAGE and cell; a PXRD or PXWR at STAGE 0 is out of sequence whatever its cell; a malformed GEOM of
version 0 is illegal. -/
def Obligations.FirstConditionWins : Prop :=
  (∀ (s : State) (w : CommandWord), s.fcause ≠ 0 → illegalWord w = true →
    runCommand w s = .next { s with rsp := some (responseWord .fault (s.fcause.setWidth 16)) }) ∧
  (∀ (s : State) (i : Instr), s.fcause ≠ 0 → (∀ n, i ≠ .rdreg n) →
    exec i s = .next { s with rsp := some (responseWord .fault (s.fcause.setWidth 16)) }) ∧
  ∀ s : State, s.fcause = 0 →
    (∀ r c p, pixRole p = 7 → exec (.pxwr r c p) s = .next { s with fcause := 1, rsp := some 0xF0000001 }) ∧
    (∀ r c p, pixRole p ≠ 7 → s.stage = 0 →
      exec (.pxrd r c) s = .next { s with fcause := 2, rsp := some 0xF0000002 } ∧
      exec (.pxwr r c p) s = .next { s with fcause := 2, rsp := some 0xF0000002 }) ∧
    runCommand 0x20100000 s = .next { s with fcause := 1, rsp := some 0xF0000001 }

/-- 30_encoding.md R97, R98: a command's response has its form: bits 27 to 16 are 0, and the status is OK, INVALID_VERSION with data 0 for a
BUILD or GEOM of an invalid version, or FAULT with FCAUSE for a command that faults or meets a faulted block. That the response stands in
the state after the step is the model's choice (log entry 4). -/
def Obligations.ResponseHasItsForm : Prop :=
  ∀ (s t : State) (w : CommandWord) (later : List HostMove), s.host = .command w :: later → step s = .next t →
    ∃ r : ResponseWord, t.rsp = some r ∧ r.extractLsb' 16 12 = 0 ∧
      ((r.extractLsb' 28 4 = 0x0 ∧ (t.fcause = 0 ∨ ∃ n, decode w = .ok (.rdreg n))) ∨
       (r.extractLsb' 28 4 = 0x1 ∧ r.extractLsb' 0 16 = 0 ∧ t.fcause = 0 ∧
         ∃ v : BitVec 8, (v.toNat < 1 ∨ 40 < v.toNat) ∧ (decode w = .ok (.geom v) ∨ ∃ l m, decode w = .ok (.build v l m))) ∨
       (r.extractLsb' 28 4 = 0xF ∧ r.extractLsb' 0 16 = t.fcause.setWidth 16 ∧ t.fcause ≠ 0 ∧
         ∀ n, decode w ≠ .ok (.rdreg n)))

/-! ### The pattern stamper -/

/-- 40_geometry_stamper.md R131: GEOM of a version from 1 to 40 completes at every STAGE: a new plan at STAGE 1, every other register as it was. -/
def Obligations.GeomStartsPlan : Prop :=
  ∀ (s : State) (v : BitVec 8), s.fcause = 0 → 1 ≤ v.toNat → v.toNat ≤ 40 →
    ∃ g, exec (.geom v) s = .next { s with
      stage := 1, version := v.setWidth 6, size := BitVec.ofNat 8 (4 * v.toNat + 17), level := 0, maskId := 0, err := 0,
      grid := g, rsp := some (responseWord .ok (BitVec.ofNat 16 (4 * v.toNat + 17))) } ∧
      (BitVec.ofNat 8 (4 * v.toNat + 17)).toNat = 4 * v.toNat + 17

/-- 40_geometry_stamper.md R130: after GEOM every cell of the grid holds the closed form, whatever grid stood before, and nothing is held
outside the square. The closed form is of the default alignment table (log entry 1). -/
def Obligations.GeomGridIsClosedForm : Prop :=
  ∀ (s : State) (v : BitVec 8), s.fcause = 0 → 1 ≤ v.toNat → v.toNat ≤ 40 →
    ∃ t, exec (.geom v) s = .next t ∧
      (∀ r c, r < 4 * v.toNat + 17 → c < 4 * v.toNat + 17 → memRead t r c = closedPixel Config.alignTable v.toNat r c) ∧
      ∀ x ∈ t.grid, keyRow x.1 < 4 * v.toNat + 17 ∧ keyCol x.1 < 4 * v.toNat + 17

/-- 40_geometry_stamper.md R123, R124, R128: under ANY alignment table the three corner zones hold the finder boxes and their light borders,
so no alignment box overlaps one. Tables whose axis walk never ends are included by the model's choice, the fuel of log entry 8. -/
def Obligations.FinderZonesStand : Prop :=
  ∀ (table : AlignTable) (v : Nat), 1 ≤ v → v ≤ 40 → ∀ dy dx, dy < 8 → dx < 8 →
    gridRead (stampedGrid table v) (cellKey dy dx) = zonePixel (ringOf dy dx 3 3) ∧
    gridRead (stampedGrid table v) (cellKey dy (4 * v + 9 + dx)) = zonePixel (ringOf dy (4 * v + 9 + dx) 3 (4 * v + 13)) ∧
    gridRead (stampedGrid table v) (cellKey (4 * v + 9 + dy) dx) = zonePixel (ringOf (4 * v + 9 + dy) dx (4 * v + 13) 3)

/-- 40_geometry_stamper.md R134: GEOM writes only none, position, alignment and timing cells, none inverted, all with offset 0, and not
the cell (S−8, 8). The last clause rests on the default alignment table (log entry 1). -/
def Obligations.GeomStampsNothingElse : Prop :=
  ∀ (s : State) (v : BitVec 8), s.fcause = 0 → 1 ≤ v.toNat → v.toNat ≤ 40 →
    ∃ t, exec (.geom v) s = .next t ∧
      (∀ a, (pixRole (gridRead t.grid a)).toNat ≤ 3 ∧ pixInvert (gridRead t.grid a) = false ∧
        pixOffset (gridRead t.grid a) = 0) ∧
      memRead t (4 * v.toNat + 9) 8 = 0x000

/-- 40_geometry_stamper.md R126, R127, R128: the axis positions and the number of placed boxes of four versions, under the default alignment
table (log entry 1). -/
def Obligations.AlignmentPositionsAsListed : Prop :=
  axisPositions Config.alignTable 1 = [4] ∧ placedBoxes Config.alignTable 1 = [] ∧
  axisPositions Config.alignTable 2 = [4, 16] ∧ placedBoxes Config.alignTable 2 = [(16, 16)] ∧
  axisPositions Config.alignTable 7 = [4, 20, 36] ∧
  placedBoxes Config.alignTable 7 = [(4, 20), (20, 4), (20, 20), (20, 36), (36, 20), (36, 36)] ∧
  axisPositions Config.alignTable 40 = [4, 28, 56, 84, 112, 140, 168] ∧ (placedBoxes Config.alignTable 40).length = 46

/-- 40_geometry_stamper.md R128, R129: for every version, placed boxes never share a cell with each other or with a corner zone, and the
skipped candidates are exactly the three near the finders; under the default alignment table (log entry 1). -/
def Obligations.PlacedBoxesNeverOverlap : Prop :=
  ∀ v, 2 ≤ v → v ≤ 40 →
    (placedBoxes Config.alignTable v).Pairwise (fun p q => p.1 + 4 < q.1 ∨ q.1 + 4 < p.1 ∨ p.2 + 4 < q.2 ∨ q.2 + 4 < p.2) ∧
    ∀ y ∈ axisPositions Config.alignTable v, ∀ x ∈ axisPositions Config.alignTable v,
      (y, x) ∈ placedBoxes Config.alignTable v ↔ ¬((y, x) = (4, 4) ∨ (y, x) = (4, 4 * v + 8) ∨ (y, x) = (4 * v + 8, 4))

/-! ### The format encoder -/

/-- 41_format_bch.md R153: the code word carries its information bits in bits 14 to 10 and the remainder in bits 9 to 0, and is a multiple
of the generator. -/
def Obligations.CodeWordIsMultipleOfGenerator : Prop :=
  ∀ info : BitVec 5,
    (bchCodeWord info).extractLsb' 10 5 = info ∧ (bchCodeWord info).extractLsb' 0 10 = bchRemainder info ∧
    bchCodeWord info = formatField info ||| (bchRemainder info).setWidth 15 ∧ bchDivide (bchCodeWord info) = 0

/-- 41_format_bch.md R154: the remainder as ten exclusive-or sums of the information bits, the five contributions, the linearity of the
code, and its least weight 7. -/
def Obligations.RemainderIsTheCircuit : Prop :=
  (∀ d : BitVec 5,
    bchRemainder d =
      BitVec.ofBool (d.getLsbD 4 ^^ d.getLsbD 3 ^^ d.getLsbD 1) ++
      BitVec.ofBool (d.getLsbD 3 ^^ d.getLsbD 2 ^^ d.getLsbD 0) ++
      BitVec.ofBool (d.getLsbD 4 ^^ d.getLsbD 3 ^^ d.getLsbD 2) ++
      BitVec.ofBool (d.getLsbD 3 ^^ d.getLsbD 2 ^^ d.getLsbD 1) ++
      BitVec.ofBool (d.getLsbD 2 ^^ d.getLsbD 1 ^^ d.getLsbD 0) ++
      BitVec.ofBool (d.getLsbD 4 ^^ d.getLsbD 3 ^^ d.getLsbD 0) ++
      BitVec.ofBool (d.getLsbD 4 ^^ d.getLsbD 2 ^^ d.getLsbD 1) ++
      BitVec.ofBool (d.getLsbD 3 ^^ d.getLsbD 1 ^^ d.getLsbD 0) ++
      BitVec.ofBool (d.getLsbD 4 ^^ d.getLsbD 3 ^^ d.getLsbD 2 ^^ d.getLsbD 1 ^^ d.getLsbD 0) ++
      BitVec.ofBool (d.getLsbD 4 ^^ d.getLsbD 2 ^^ d.getLsbD 0)) ∧
  bchRemainder 0b10000 = 0x29B ∧ bchRemainder 0b01000 = 0x3D6 ∧ bchRemainder 0b00100 = 0x1EB ∧
  bchRemainder 0b00010 = 0x26E ∧ bchRemainder 0b00001 = 0x137 ∧
  bchCodeWord 0b10000 = 0x429B ∧ bchCodeWord 0b01000 = 0x23D6 ∧ bchCodeWord 0b00100 = 0x11EB ∧
  bchCodeWord 0b00010 = 0x0A6E ∧ bchCodeWord 0b00001 = 0x0537 ∧ bchCodeWord 0 = 0 ∧
  (∀ a b : BitVec 5, bchCodeWord (a ^^^ b) = bchCodeWord a ^^^ bchCodeWord b) ∧
  ∀ a : BitVec 5, a ≠ 0 → 7 ≤ ((List.range 15).filter (fun k => (bchCodeWord a).getLsbD k)).length

/-- 41_format_bch.md R156, R157: BCHENC completes at every STAGE, records the code word and the drawn word of the table of the 32 cases,
responds the drawn word, and changes nothing else. -/
def Obligations.BchencRecordsListedWords : Prop :=
  ∀ (s : State) (l : BitVec 2) (m : BitVec 3), s.fcause = 0 →
    exec (.bchenc l m) s = .next { s with
      fmtRaw := listedCode l m, fmtDrawn := listedDrawn l m, rsp := some (responseWord .ok ((listedDrawn l m).setWidth 16)) }

/-- 41_format_bch.md R159, R160: FMT at STAGE 1 completes; both cells of bit k get the pixel 0x010 + 0x020·k + 2·K[k] + (cw[k] ^ K[k]),
every other address and every other register is as before. The cells are those of the default table (log entry 2). -/
def Obligations.FmtWritesBothPaths : Prop :=
  ∀ (s : State) (l : BitVec 2) (m : BitVec 3), s.fcause = 0 → s.stage = 1 → 21 ≤ s.size.toNat →
    ∃ g, exec (.fmt l m) s = .next { s with
        fmtRaw := listedCode l m, fmtDrawn := listedDrawn l m, stage := 2, grid := g,
        rsp := some (responseWord .ok ((listedDrawn l m).setWidth 16)) } ∧
      (∀ k < 15, ∃ p : Pixel,
        p.toNat = 0x010 + 0x020 * k + 2 * ((0x5412 : BitVec 15).getLsbD k).toNat + ((listedDrawn l m).getLsbD k).toNat ∧
        gridRead g (cellKey (pathA k).1 (pathA k).2) = p ∧
        gridRead g (cellKey (pathB s.size.toNat k).1 (pathB s.size.toNat k).2) = p) ∧
      ∀ a, (∀ k < 15, a ≠ cellKey (pathA k).1 (pathA k).2 ∧ a ≠ cellKey (pathB s.size.toNat k).1 (pathB s.size.toNat k).2) →
        gridRead g a = gridRead s.grid a

/-- The model's own choice (log entry 7): in a grid too small for the format cells, which no run reaches, FMT at STAGE 1 stops, since the
cells it would write do not exist (20_memory.md R61, R64). -/
def Obligations.FmtOutsideGridStops : Prop :=
  ∀ (s : State) (l : BitVec 2) (m : BitVec 3), s.fcause = 0 → s.stage = 1 → s.size.toNat ≤ 8 →
    exec (.fmt l m) s = .fault .cellOutsideGrid

/-- 41_format_bch.md R155: after FMT, `invert` of the cell of bit k is K[k], `black` is the drawn bit, and their exclusive or is the
unmasked code word bit, on both paths. The cells are those of the default table (log entry 2). -/
def Obligations.FormatFlagsCarryTheWord : Prop :=
  ∀ (s t : State) (l : BitVec 2) (m : BitVec 3) (k : Nat), s.fcause = 0 → s.stage = 1 → 21 ≤ s.size.toNat → k < 15 →
    exec (.fmt l m) s = .next t →
    ∀ q : Nat × Nat, (q = pathA k ∨ q = pathB s.size.toNat k) →
      pixRole (memRead t q.1 q.2) = 4 ∧ pixOffset (memRead t q.1 q.2) = BitVec.ofNat 4 k ∧
      pixInvert (memRead t q.1 q.2) = (0x5412 : BitVec 15).getLsbD k ∧
      pixBlack (memRead t q.1 q.2) = t.fmtDrawn.getLsbD k ∧
      (pixBlack (memRead t q.1 q.2) ^^ pixInvert (memRead t q.1 q.2)) = t.fmtRaw.getLsbD k

/-- 41_format_bch.md R158: after GEOM all thirty format cells hold 0x000, for every version, under the default tables (log entries 1, 2). -/
def Obligations.FormatCellsAreFreeAfterGeom : Prop :=
  ∀ (s : State) (v : BitVec 8) (k : Nat), s.fcause = 0 → 1 ≤ v.toNat → v.toNat ≤ 40 → k < 15 →
    ∃ t, exec (.geom v) s = .next t ∧ memRead t (pathA k).1 (pathA k).2 = 0x000 ∧
      memRead t (pathB (4 * v.toNat + 17) k).1 (pathB (4 * v.toNat + 17) k).2 = 0x000

/-! ### The mask evaluator and applicator -/

/-- 42_mask_evaluator.md R181 to R188, R190: MEVAL completes at every STAGE, records all eight formulas of (i, j), bit k formula k,
responds them, and changes nothing else. -/
def Obligations.MevalEvaluatesAllFormulas : Prop :=
  ∀ (s : State) (i j : BitVec 8), s.fcause = 0 →
    ∃ v : BitVec 8, exec (.meval i j) s = .next { s with mvec := v, rsp := some (responseWord .ok (v.setWidth 16)) } ∧
      (v.getLsbD 0 = true ↔ (i.toNat + j.toNat) % 2 = 0) ∧
      (v.getLsbD 1 = true ↔ i.toNat % 2 = 0) ∧
      (v.getLsbD 2 = true ↔ j.toNat % 3 = 0) ∧
      (v.getLsbD 3 = true ↔ (i.toNat + j.toNat) % 3 = 0) ∧
      (v.getLsbD 4 = true ↔ (i.toNat / 2 + j.toNat / 3) % 2 = 0) ∧
      (v.getLsbD 5 = true ↔ i.toNat * j.toNat % 2 + i.toNat * j.toNat % 3 = 0) ∧
      (v.getLsbD 6 = true ↔ (i.toNat * j.toNat % 2 + i.toNat * j.toNat % 3) % 2 = 0) ∧
      (v.getLsbD 7 = true ↔ (i.toNat * j.toNat % 3 + (i.toNat + j.toNat) % 2) % 2 = 0)

/-- 42_mask_evaluator.md R189: the circuit forms of the eight functions, the remainder by 3 as an alternating sum of bits, and the periods. -/
def Obligations.MaskCircuitsEqualFormulas : Prop :=
  (∀ i j : BitVec 8,
    let a := i.getLsbD 0; let b := j.getLsbD 0; let ri := i.toNat % 3; let rj := j.toNat % 3
    let p2 := a && b; let p3 := BitVec.ofNat 2 (ri * rj % 3); let q := BitVec.ofNat 8 (j.toNat / 3)
    p2.toNat = i.toNat * j.toNat % 2 ∧ ri * rj % 3 = i.toNat * j.toNat % 3 ∧
    maskFormula 0 i.toNat j.toNat = !(a ^^ b) ∧ maskFormula 1 i.toNat j.toNat = !a ∧
    maskFormula 2 i.toNat j.toNat = (rj == 0) ∧ maskFormula 3 i.toNat j.toNat = ((ri + rj) % 3 == 0) ∧
    maskFormula 4 i.toNat j.toNat = !(i.getLsbD 1 ^^ q.getLsbD 0) ∧
    maskFormula 5 i.toNat j.toNat = (!p2 && p3 == 0) ∧
    maskFormula 6 i.toNat j.toNat = !(p2 ^^ p3.getLsbD 0) ∧
    maskFormula 7 i.toNat j.toNat = !(p3.getLsbD 0 ^^ a ^^ b)) ∧
  (∀ n : BitVec 8,
    ((n.toNat % 3 : Nat) : Int) =
      ((n.getLsbD 0).toNat - (n.getLsbD 1).toNat + (n.getLsbD 2).toNat - (n.getLsbD 3).toNat + (n.getLsbD 4).toNat -
        (n.getLsbD 5).toNat + (n.getLsbD 6).toNat - (n.getLsbD 7).toNat : Int) % 3) ∧
  ∀ (m : BitVec 3) (i j : Nat),
    maskFormula m i (j + 6) = maskFormula m i j ∧ (m ≠ 4 → maskFormula m (i + 6) j = maskFormula m i j) ∧
    maskFormula 4 (i + 4) j = maskFormula 4 i j ∧ maskFormula m (i + 12) j = maskFormula m i j ∧
    maskFormula m i (j + 12) = maskFormula m i j

/-- 42_mask_evaluator.md R191: MASK at STAGE 3 completes; `invert` of every data and check cell of the grid is assigned the mask function of
its row and column, its other fields and every other address and register are as before. -/
def Obligations.MaskAssignsInvert : Prop :=
  ∀ (s : State) (m : BitVec 3), s.fcause = 0 → s.stage = 3 →
    ∃ g, exec (.mask m) s = .next { s with maskId := m, stage := 4, grid := g, rsp := some (responseWord .ok 0) } ∧
      ∀ a, gridRead g a =
        if a / 256 < s.size.toNat ∧ a % 256 < s.size.toNat ∧
            (pixRole (gridRead s.grid a) = 5 ∨ pixRole (gridRead s.grid a) = 6) then
          (gridRead s.grid a).extractLsb' 2 7 ++ BitVec.ofBool (maskFormula m (a / 256) (a % 256)) ++
            (gridRead s.grid a).extractLsb' 0 1
        else gridRead s.grid a

/-- 42_mask_evaluator.md R191, corner case: a grid with no data or check cell is left unchanged; MASK then only sets MASKID and STAGE. -/
def Obligations.MaskWithoutPayloadKeepsGrid : Prop :=
  ∀ (s : State) (m : BitVec 3), s.fcause = 0 → s.stage = 3 → (∀ x ∈ s.grid, pixRole x.2 ≠ 5 ∧ pixRole x.2 ≠ 6) →
    exec (.mask m) s = .next { s with maskId := m, stage := 4, rsp := some (responseWord .ok 0) }

/-- 42_mask_evaluator.md R193: MASK is a function of the grid, SIZE and m alone, and so are the invert flags it leaves. -/
def Obligations.MaskIsDeterministic : Prop :=
  ∀ (s s' : State) (m : BitVec 3), s.fcause = 0 → s'.fcause = 0 → s.stage = 3 → s'.stage = 3 → s.size = s'.size →
    (∀ a, gridRead s.grid a = gridRead s'.grid a) →
    ∃ t t', exec (.mask m) s = .next t ∧ exec (.mask m) s' = .next t' ∧ t.maskId = t'.maskId ∧ t.stage = t'.stage ∧
      ∀ a, gridRead t.grid a = gridRead t'.grid a

/-! ### The plan sequencer -/

/-- 43_plan_sequencer_and_access.md R206: LVL at STAGE 2 completes: LEVEL and STAGE 3, nothing else changes. -/
def Obligations.LvlRecordsLevel : Prop :=
  ∀ (s : State) (l : BitVec 2), s.fcause = 0 → s.stage = 2 →
    exec (.lvl l) s = .next { s with level := l, stage := 3, rsp := some 0x00000000 }

/-- 43_plan_sequencer_and_access.md R203: BUILD of a version from 1 to 40 completes at every STAGE with a complete plan; FCAUSE, MVEC and PXDATA
are as before. -/
def Obligations.BuildCompletesPlan : Prop :=
  ∀ (s : State) (v : BitVec 8) (l : BitVec 2) (m : BitVec 3), s.fcause = 0 → 1 ≤ v.toNat → v.toNat ≤ 40 →
    ∃ g, exec (.build v l m) s = .next { s with
      stage := 4, version := v.setWidth 6, size := BitVec.ofNat 8 (4 * v.toNat + 17), level := l, maskId := m, err := 0,
      fmtRaw := listedCode l m, fmtDrawn := listedDrawn l m, grid := g,
      rsp := some (responseWord .ok (BitVec.ofNat 16 (4 * v.toNat + 17))) }

/-- 43_plan_sequencer_and_access.md R204: BUILD leaves the same state and grid as GEOM, FMT, LVL and MASK in that order, for a valid version,
and as GEOM alone for an invalid one; only the responses of the valid case differ. -/
def Obligations.BuildEqualsItsStages : Prop :=
  ∀ (s : State) (v : BitVec 8) (l : BitVec 2) (m : BitVec 3), s.fcause = 0 →
    (1 ≤ v.toNat → v.toNat ≤ 40 →
      ∃ t a b c d, exec (.build v l m) s = .next t ∧ exec (.geom v) s = .next a ∧ exec (.fmt l m) a = .next b ∧
        exec (.lvl l) b = .next c ∧ exec (.mask m) c = .next d ∧ t = { d with rsp := t.rsp }) ∧
    ((v.toNat < 1 ∨ 40 < v.toNat) → exec (.build v l m) s = exec (.geom v) s)

/-- 70_reset_and_hazards.md R271: two BUILD commands with the same operands leave identical grids and identical registers 0 to 11, whatever
state preceded them, short of the faulted state. -/
def Obligations.BuildIsPure : Prop :=
  ∀ (s s' : State) (v : BitVec 8) (l : BitVec 2) (m : BitVec 3), s.fcause = 0 → s'.fcause = 0 → 1 ≤ v.toNat → v.toNat ≤ 40 →
    ∃ t t', exec (.build v l m) s = .next t ∧ exec (.build v l m) s' = .next t' ∧ t.grid = t'.grid ∧
      ∀ n : BitVec 4, n.toNat ≤ 11 → readReg n t = readReg n t'

/-- 43_plan_sequencer_and_access.md R203, 10_state.md R38 (3): BUILD's grid is GEOM's with the thirty format cells written: every position,
alignment and timing cell stays as GEOM fixed it, and no cell has the data or check role. Under the default tables (log entries 1, 2). -/
def Obligations.BuildKeepsGeometry : Prop :=
  ∀ (s : State) (v : BitVec 8) (l : BitVec 2) (m : BitVec 3), s.fcause = 0 → 1 ≤ v.toNat → v.toNat ≤ 40 →
    ∃ t g, exec (.build v l m) s = .next t ∧ exec (.geom v) s = .next g ∧
      (∀ a, pixRole (gridRead g.grid a) ≠ 0 → gridRead t.grid a = gridRead g.grid a) ∧
      (∀ a, gridRead t.grid a ≠ gridRead g.grid a → pixRole (gridRead t.grid a) = 4) ∧
      ∀ a, (pixRole (gridRead t.grid a)).toNat ≤ 4

/-- 43_plan_sequencer_and_access.md R201: the STAGE requirements and transitions of all ten commands; a command that faults, or meets a
faulted block, leaves STAGE unchanged. -/
def Obligations.StageFollowsTheOrder : Prop :=
  ∀ (i : Instr) (s t : State), exec i s = .next t →
    (t.fcause ≠ 0 ∧ t.stage = s.stage) ∨
    (s.fcause = 0 ∧ t.fcause = 0 ∧
      match i with
      | .build v _ _ => t.stage = if 1 ≤ v.toNat ∧ v.toNat ≤ 40 then 4 else 0
      | .geom v => t.stage = if 1 ≤ v.toNat ∧ v.toNat ≤ 40 then 1 else 0
      | .fmt _ _ => s.stage = 1 ∧ t.stage = 2
      | .lvl _ => s.stage = 2 ∧ t.stage = 3
      | .mask _ => s.stage = 3 ∧ t.stage = 4
      | .bchenc _ _ => t.stage = s.stage
      | .meval _ _ => t.stage = s.stage
      | .pxrd _ _ => s.stage ≠ 0 ∧ t.stage = s.stage
      | .pxwr _ _ _ => s.stage ≠ 0 ∧ t.stage = s.stage
      | .rdreg _ => t.stage = s.stage)

/-- 10_state.md R21, 20_memory.md R62: each register is written by its listed commands alone, the grid by BUILD, GEOM, FMT, MASK and PXWR
alone, FCAUSE only once. -/
def Obligations.OnlyListedCommandsWrite : Prop :=
  ∀ (i : Instr) (s t : State), exec i s = .next t →
    (t.stage = s.stage ∨ startsPlan i = true ∨ isFmt i = true ∨ isLvl i = true ∨ isMask i = true) ∧
    (t.version = s.version ∨ startsPlan i = true) ∧ (t.size = s.size ∨ startsPlan i = true) ∧
    (t.level = s.level ∨ startsPlan i = true ∨ isLvl i = true) ∧
    (t.maskId = s.maskId ∨ startsPlan i = true ∨ isMask i = true) ∧
    (t.err = s.err ∨ startsPlan i = true) ∧
    (t.fcause = s.fcause ∨ s.fcause = 0) ∧
    (t.fmtRaw = s.fmtRaw ∨ isBuild i = true ∨ isFmt i = true ∨ isBchenc i = true) ∧
    (t.fmtDrawn = s.fmtDrawn ∨ isBuild i = true ∨ isFmt i = true ∨ isBchenc i = true) ∧
    (t.mvec = s.mvec ∨ isMeval i = true) ∧ (t.pxData = s.pxData ∨ isPxrd i = true) ∧
    (t.grid = s.grid ∨ startsPlan i = true ∨ isFmt i = true ∨ isMask i = true ∨ isPxwr i = true) ∧
    t.host = s.host

/-- 43_plan_sequencer_and_access.md R210, 30_encoding.md R85: PXWR is the only way a cell gets the data or check role. -/
def Obligations.OnlyPxwrMarksPayload : Prop :=
  ∀ (i : Instr) (s t : State), exec i s = .next t → isPxwr i = false →
    ∀ a, pixIsPayload (gridRead t.grid a) = true → pixIsPayload (gridRead s.grid a) = true

/-! ### The access commands -/

/-- 43_plan_sequencer_and_access.md R208: PXRD of a cell of the grid completes: PXDATA and the response are the cell's pixel, nothing else
changes, no cell by being read. -/
def Obligations.PxrdReturnsPixel : Prop :=
  ∀ (s : State) (r c : BitVec 8), s.fcause = 0 → s.stage ≠ 0 → r.toNat < s.size.toNat → c.toNat < s.size.toNat →
    exec (.pxrd r c) s = .next { s with
      pxData := gridRead s.grid (r ++ c).toNat, rsp := some (responseWord .ok ((gridRead s.grid (r ++ c).toNat).setWidth 16)) }

/-- 43_plan_sequencer_and_access.md R210, 20_memory.md R64: PXWR of a legal pixel to a cell of the grid completes: the whole pixel is replaced,
every other address and every register is as before. -/
def Obligations.PxwrReplacesPixel : Prop :=
  ∀ (s : State) (r c : BitVec 8) (p : Pixel), s.fcause = 0 → pixRole p ≠ 7 → s.stage ≠ 0 → r.toNat < s.size.toNat →
    c.toNat < s.size.toNat →
    ∃ g, exec (.pxwr r c p) s = .next { s with grid := g, rsp := some 0x00000000 } ∧
      gridRead g (r ++ c).toNat = p ∧ ∀ a, a ≠ (r ++ c).toNat → gridRead g a = gridRead s.grid a

/-- 20_memory.md R63: PXRD returns the pixel last written to the cell: a PXWR, then a PXRD of the same cell. -/
def Obligations.WrittenPixelIsReadBack : Prop :=
  ∀ (s : State) (r c : BitVec 8) (p : Pixel), s.fcause = 0 → pixRole p ≠ 7 → s.stage ≠ 0 → r.toNat < s.size.toNat →
    c.toNat < s.size.toNat →
    ∃ t u, exec (.pxwr r c p) s = .next t ∧ exec (.pxrd r c) t = .next u ∧ u.pxData = p ∧
      u.rsp = some (responseWord .ok (p.setWidth 16)) ∧ u.grid = t.grid

/-- 10_state.md R21, 43_plan_sequencer_and_access.md R212: RDREG of each of the fourteen registers completes in every state, faulted or not,
responds the register zero-extended, and changes no state. -/
def Obligations.RdregReadsEveryRegister : Prop :=
  ∀ s : State,
    exec (.rdreg 0) s = .next { s with rsp := some (responseWord .ok (s.stage.setWidth 16)) } ∧
    exec (.rdreg 1) s = .next { s with rsp := some (responseWord .ok (s.version.setWidth 16)) } ∧
    exec (.rdreg 2) s = .next { s with rsp := some (responseWord .ok (s.size.setWidth 16)) } ∧
    exec (.rdreg 3) s = .next { s with rsp := some (responseWord .ok (s.level.setWidth 16)) } ∧
    exec (.rdreg 4) s = .next { s with rsp := some (responseWord .ok (s.maskId.setWidth 16)) } ∧
    exec (.rdreg 5) s = .next { s with rsp := some (responseWord .ok 0) } ∧
    exec (.rdreg 6) s = .next { s with rsp := some (responseWord .ok 0) } ∧
    exec (.rdreg 7) s = .next { s with rsp := some (responseWord .ok 0) } ∧
    exec (.rdreg 8) s = .next { s with rsp := some (responseWord .ok (s.err.setWidth 16)) } ∧
    exec (.rdreg 9) s = .next { s with rsp := some (responseWord .ok (s.fcause.setWidth 16)) } ∧
    exec (.rdreg 10) s = .next { s with rsp := some (responseWord .ok (s.fmtRaw.setWidth 16)) } ∧
    exec (.rdreg 11) s = .next { s with rsp := some (responseWord .ok (s.fmtDrawn.setWidth 16)) } ∧
    exec (.rdreg 12) s = .next { s with rsp := some (responseWord .ok (s.mvec.setWidth 16)) } ∧
    exec (.rdreg 13) s = .next { s with rsp := some (responseWord .ok (s.pxData.setWidth 16)) }

/-- 43_plan_sequencer_and_access.md R212, 30_encoding.md R99 (d): RDREG of index 14 or 15 raises Fault(ILLEGAL_COMMAND), and on a faulted block
answers (FAULT, FCAUSE). -/
def Obligations.ReservedRegisterFaults : Prop :=
  ∀ (s : State) (n : BitVec 4), 14 ≤ n.toNat →
    exec (.rdreg n) s =
      if s.fcause = 0 then .next { s with fcause := 1, rsp := some 0xF0000001 }
      else .next { s with rsp := some (responseWord .fault (s.fcause.setWidth 16)) }

/-- 10_state.md R27: the capacity counters read 0 after reset and after every command. -/
def Obligations.CapacityCountersReadZero : Prop :=
  ∀ s : State, readReg 5 s = some 0 ∧ readReg 6 s = some 0 ∧ readReg 7 s = some 0

/-! ### The block with any tables -/

/-- 00_scope.md R9: the tables are arguments of the machine; `exec` and `step` are the machine with the default tables (log entries 1, 2). -/
def Obligations.DefaultTablesAreAnArgument : Prop :=
  (∀ (i : Instr) (s : State), exec i s = execWith ⟨defaultAlignTable, defaultFormatCells⟩ i s) ∧
  ∀ s : State, step s = stepWith ⟨defaultAlignTable, defaultFormatCells⟩ s

/-- 40_geometry_stamper.md R126, R128 to R131, 00_scope.md R9: on a block with ANY tables under which placed alignment boxes never overlap,
GEOM of a version from 1 to 40 completes with the closed form of that alignment table in every cell of the grid. That GEOM completes, and
with which boxes, also under a table whose axis walk never ends is the model's choice, the fuel of log entry 8. -/
def Obligations.GeomUnderAnyTables : Prop :=
  ∀ (T : Tables) (s : State) (v : BitVec 8), s.fcause = 0 → 1 ≤ v.toNat → v.toNat ≤ 40 →
    (placedBoxes T.align v.toNat).Pairwise
      (fun p q => p.1 + 4 < q.1 ∨ q.1 + 4 < p.1 ∨ p.2 + 4 < q.2 ∨ q.2 + 4 < p.2) →
    ∃ g, execWith T (.geom v) s = .next { s with
      stage := 1, version := v.setWidth 6, size := BitVec.ofNat 8 (4 * v.toNat + 17), level := 0, maskId := 0, err := 0,
      grid := g, rsp := some (responseWord .ok (BitVec.ofNat 16 (4 * v.toNat + 17))) } ∧
      ∀ r c, r < 4 * v.toNat + 17 → c < 4 * v.toNat + 17 →
        gridRead g (cellKey r c) = closedPixel T.align v.toNat r c

/-- 41_format_bch.md R159, R160, 00_scope.md R9: on a block with ANY tables whose thirty format cells are distinct and in the grid, FMT at
STAGE 1 completes; both cells of bit k get the pixel of bit k, every other address and register is as before. -/
def Obligations.FmtUnderAnyTables : Prop :=
  ∀ (T : Tables) (s : State) (l : BitVec 2) (m : BitVec 3), s.fcause = 0 → s.stage = 1 →
    (∀ k < 15, (T.cells s.size.toNat k).1.1 < s.size.toNat ∧ (T.cells s.size.toNat k).1.2 < s.size.toNat ∧
      (T.cells s.size.toNat k).2.1 < s.size.toNat ∧ (T.cells s.size.toNat k).2.2 < s.size.toNat) →
    (∀ j < 15, ∀ k < 15, (T.cells s.size.toNat j).1 ≠ (T.cells s.size.toNat k).2 ∧
      (j ≠ k → (T.cells s.size.toNat j).1 ≠ (T.cells s.size.toNat k).1 ∧
        (T.cells s.size.toNat j).2 ≠ (T.cells s.size.toNat k).2)) →
    ∃ g, execWith T (.fmt l m) s = .next { s with
        fmtRaw := listedCode l m, fmtDrawn := listedDrawn l m, stage := 2, grid := g,
        rsp := some (responseWord .ok ((listedDrawn l m).setWidth 16)) } ∧
      (∀ k < 15, ∃ p : Pixel,
        p.toNat = 0x010 + 0x020 * k + 2 * ((0x5412 : BitVec 15).getLsbD k).toNat + ((listedDrawn l m).getLsbD k).toNat ∧
        gridRead g (cellKey (T.cells s.size.toNat k).1.1 (T.cells s.size.toNat k).1.2) = p ∧
        gridRead g (cellKey (T.cells s.size.toNat k).2.1 (T.cells s.size.toNat k).2.2) = p) ∧
      ∀ a, (∀ k < 15, a ≠ cellKey (T.cells s.size.toNat k).1.1 (T.cells s.size.toNat k).1.2 ∧
          a ≠ cellKey (T.cells s.size.toNat k).2.1 (T.cells s.size.toNat k).2.2) →
        gridRead g a = gridRead s.grid a

/-- 43_plan_sequencer_and_access.md R203, R204, 00_scope.md R9: on a block with ANY tables whose format cells lie in the grid, BUILD of a valid
version completes and leaves the state and the grid that GEOM, FMT, LVL and MASK leave in that order. That BUILD and GEOM complete also under a
table whose axis walk never ends is the model's choice, the fuel of log entry 8. -/
def Obligations.BuildUnderAnyTables : Prop :=
  ∀ (T : Tables) (s : State) (v : BitVec 8) (l : BitVec 2) (m : BitVec 3), s.fcause = 0 → 1 ≤ v.toNat → v.toNat ≤ 40 →
    (∀ k < 15, (T.cells (4 * v.toNat + 17) k).1.1 < 4 * v.toNat + 17 ∧ (T.cells (4 * v.toNat + 17) k).1.2 < 4 * v.toNat + 17 ∧
      (T.cells (4 * v.toNat + 17) k).2.1 < 4 * v.toNat + 17 ∧ (T.cells (4 * v.toNat + 17) k).2.2 < 4 * v.toNat + 17) →
    ∃ t a b c d, execWith T (.build v l m) s = .next t ∧ execWith T (.geom v) s = .next a ∧
      execWith T (.fmt l m) a = .next b ∧ execWith T (.lvl l) b = .next c ∧ execWith T (.mask m) c = .next d ∧
      t = { d with rsp := t.rsp } ∧ t.rsp = some (responseWord .ok (BitVec.ofNat 16 (4 * v.toNat + 17)))

/-! ### The invariant -/

/-- The invariant holds right after reset. -/
def Obligations.InvariantAtReset : Prop := Inv State.reset

/-- Every step keeps the invariant: the ranges and relations that 10_state.md gives the registers and the grid hold after every command, reset and
idle step from every state in which they hold. The canonical form of the grid is the model's representation (log entry 5). -/
def Obligations.StepKeepsInvariant : Prop :=
  ∀ s t : State, Inv s → step s = .next t → Inv t

/-- 70_reset_and_hazards.md R265: from every state that meets the invariant a step answers a next state, so the block never hangs, and a
command is answered; that the response stands in the state after the step is the model's choice (log entry 4). -/
def Obligations.StepNeverStops : Prop :=
  ∀ s : State, Inv s → ∃ t, step s = .next t ∧ ∀ w later, s.host = .command w :: later → ∃ r, t.rsp = some r

/-- 00_scope.md R9: the invariant does not rest on the default tables: on a block with ANY tables every step keeps it. What a
step does under a table whose axis walk never ends is the model's choice (log entry 8), as is the grid's canonical form (log entry 5). -/
def Obligations.InvariantUnderAnyTables : Prop :=
  ∀ (T : Tables) (s t : State), Inv s → stepWith T s = .next t → Inv t
end

