-- ==== Sys2Proof/Laws/Grid.lean ====
section
/-!
SUPPORT. The grid as a memory: a read after a write, the frame of a write, the canonical form and that every operation keeps
it, and that canonical grids with the same reads are equal.
-/

namespace Sys2Proof.Machine

/-! ### Cell addresses -/

theorem cellKey_toNat (row col : BitVec 8) : (cellAddress row col).toNat = cellKey row.toNat col.toNat := by
  have h := col.isLt
  rw [cellAddress, BitVec.toNat_append, ← Nat.shiftLeft_add_eq_or_of_lt h, Nat.shiftLeft_eq, cellKey]

theorem keyRow_cellKey {r c : Nat} (h : c < 256) : keyRow (cellKey r c) = r := by
  simp only [keyRow, cellKey]; omega

theorem keyCol_cellKey {r c : Nat} (h : c < 256) : keyCol (cellKey r c) = c := by
  simp only [keyCol, cellKey]; omega

theorem cellKey_keyRow_keyCol (a : Nat) : cellKey (keyRow a) (keyCol a) = a := by
  simp only [keyRow, keyCol, cellKey]; omega

theorem cellKey_inj {r c r' c' : Nat} (h : c < 256) (h' : c' < 256) :
    cellKey r c = cellKey r' c' ↔ r = r' ∧ c = c' := by
  simp only [cellKey]; omega

@[simp] theorem inSquare_iff {S r c : Nat} : inSquare S r c = true ↔ r < S ∧ c < S := by
  simp [inSquare]

/-! ### Reads after one write -/

theorem gridRead_put (g : Grid) (a b : Nat) (p : Pixel) :
    gridRead (gridPut g a p) b = if b = a then p else gridRead g b := by
  induction g with
  | nil => simp [gridPut, gridRead]
  | cons x g ih =>
    obtain ⟨k, q⟩ := x
    by_cases h1 : a < k
    · simp [gridPut, h1, gridRead]
    · by_cases h2 : a = k
      · subst h2; by_cases h3 : b = a <;> simp [gridPut, gridRead, h3]
      · by_cases h3 : b = k
        · subst h3; simp [gridPut, h1, h2, gridRead, Ne.symm h2]
        · simp [gridPut, h1, h2, gridRead, h3, ih]

theorem gridRead_erase (g : Grid) (a b : Nat) :
    gridRead (gridErase g a) b = if b = a then clearedPixel else gridRead g b := by
  induction g with
  | nil => simp [gridErase, gridRead]
  | cons x g ih =>
    obtain ⟨k, q⟩ := x
    simp only [gridErase] at ih ⊢
    by_cases h1 : k = a
    · subst h1
      by_cases h2 : b = k
      · subst h2; simpa using ih
      · simp [ih, gridRead, h2]
    · by_cases h2 : b = k
      · subst h2; simp [h1, gridRead]
      · simp [h1, gridRead, h2, ih]

/-- A read after a write: the written pixel at its address, the old one elsewhere. -/
theorem gridRead_write (g : Grid) (a b : Nat) (p : Pixel) :
    gridRead (gridWrite g a p) b = if b = a then p else gridRead g b := by
  by_cases h : p = clearedPixel
  · simp [gridWrite, h, gridRead_erase]
  · simp [gridWrite, h, gridRead_put]

@[simp] theorem gridRead_write_same (g : Grid) (a : Nat) (p : Pixel) : gridRead (gridWrite g a p) a = p := by
  simp [gridRead_write]

theorem gridRead_write_other (g : Grid) {a b : Nat} (p : Pixel) (h : b ≠ a) :
    gridRead (gridWrite g a p) b = gridRead g b := by
  simp [gridRead_write, h]

/-! ### Runs of writes laid over a grid -/

/-- The pixel listed first for an address, if any. -/
def findWrite : List Cell → Nat → Option Pixel
  | [], _ => none
  | w :: ws, a => if a = w.1 then some w.2 else findWrite ws a

/-- The cells of a run are in rising order. -/
abbrev Rising (ws : List Cell) : Prop := ws.Pairwise (fun x y => x.1 < y.1)

theorem gridRead_eq_findWrite (g : Grid) (a : Nat) : gridRead g a = (findWrite g a).getD clearedPixel := by
  induction g with
  | nil => rfl
  | cons x g ih => by_cases h : a = x.1 <;> simp [gridRead, findWrite, h, ih]

theorem findWrite_eq_none {ws : List Cell} {a : Nat} (h : ∀ w ∈ ws, a ≠ w.1) : findWrite ws a = none := by
  induction ws with
  | nil => rfl
  | cons w ws ih => simp [findWrite, h w (by simp), ih (fun x hx => h x (by simp [hx]))]

theorem mem_overlayOne {w x : Cell} {ws : List Cell} {rest : Grid → Grid} (hr : ∀ g, x ∈ rest g → x ∈ ws ∨ x ∈ g) {g : Grid}
    (h : x ∈ overlayOne w rest g) : x ∈ w :: ws ∨ x ∈ g := by
  induction g with
  | nil =>
    rcases List.mem_cons.mp h with rfl | h
    · simp
    · rcases hr _ h with h | h <;> simp_all
  | cons y g ih =>
    unfold overlayOne at h
    split at h
    · rcases List.mem_cons.mp h with rfl | h
      · simp
      · rcases hr _ h with h | h
        · simp [h]
        · exact .inr h
    · split at h
      · rcases List.mem_cons.mp h with rfl | h
        · simp
        · rcases hr _ h with h | h <;> simp [h]
      · rcases List.mem_cons.mp h with rfl | h
        · simp
        · exact (ih h).imp_right (List.mem_cons_of_mem _)

/-- A cell of an overlaid grid comes from the run or from the grid. -/
theorem mem_gridOverlay {ws : List Cell} {g : Grid} {x : Cell} (h : x ∈ gridOverlay ws g) : x ∈ ws ∨ x ∈ g := by
  induction ws generalizing g with
  | nil => exact .inr h
  | cons w ws ih => exact mem_overlayOne (fun _ => ih) h

/-- Overlaying keeps the rising order. -/
theorem gridOverlay_rising {ws : List Cell} (hw : Rising ws) {g : Grid} (hg : Rising g) : Rising (gridOverlay ws g) := by
  induction ws generalizing g with
  | nil => exact hg
  | cons w ws ih =>
    obtain ⟨hw1, hw2⟩ := List.pairwise_cons.mp hw
    simp only [gridOverlay]
    induction g with
    | nil =>
      refine List.pairwise_cons.mpr ⟨fun x hx => ?_, ih hw2 hg⟩
      rcases mem_gridOverlay hx with h | h
      · exact hw1 x h
      · cases h
    | cons y g ihg =>
      obtain ⟨hg1, hg2⟩ := List.pairwise_cons.mp hg
      unfold overlayOne
      split
      · refine List.pairwise_cons.mpr ⟨fun x hx => ?_, ih hw2 hg⟩
        rcases mem_gridOverlay hx with h | h
        · exact hw1 x h
        · rcases List.mem_cons.mp h with rfl | h
          · assumption
          · exact lt_trans ‹_› (hg1 x h)
      · split
        · refine List.pairwise_cons.mpr ⟨fun x hx => ?_, ih hw2 hg2⟩
          rcases mem_gridOverlay hx with h | h
          · exact hw1 x h
          · have := hg1 x h; omega
        · refine List.pairwise_cons.mpr ⟨fun x hx => ?_, ihg hg2⟩
          rcases mem_overlayOne (fun _ => mem_gridOverlay) hx with h | h
          · rcases List.mem_cons.mp h with rfl | h
            · omega
            · have := hw1 x h; omega
          · exact hg1 x h

/-- At each address the run wins over the grid. -/
theorem findWrite_overlay {ws : List Cell} (hw : Rising ws) (g : Grid) (a : Nat) :
    findWrite (gridOverlay ws g) a = (findWrite ws a).or (findWrite g a) := by
  induction ws generalizing g with
  | nil => rfl
  | cons w ws ih =>
    obtain ⟨hw1, hw2⟩ := List.pairwise_cons.mp hw
    simp only [gridOverlay]
    induction g with
    | nil => by_cases h : a = w.1 <;> simp [overlayOne, findWrite, h, ih hw2]
    | cons y g ihg =>
      unfold overlayOne
      split
      · by_cases h : a = w.1 <;> simp [findWrite, h, ih hw2]
      · split
        · by_cases h : a = w.1
          · simp [findWrite, h]
          · have : a ≠ y.1 := by omega
            simp [findWrite, h, ih hw2, this]
        · by_cases h : a = y.1
          · have : findWrite (w :: ws) a = none := findWrite_eq_none fun x hx => by
              rcases List.mem_cons.mp hx with rfl | hx
              · omega
              · have := hw1 x hx; omega
            rw [this]; simp [findWrite, h]
          · have : findWrite (y :: g) a = findWrite g a := by simp [findWrite, h]
            rw [this, ← ihg]; simp [findWrite, h]

theorem pairRuns_rising : ∀ {rs : List Grid}, (∀ r ∈ rs, Rising r) → ∀ r ∈ pairRuns rs, Rising r
  | [], h => h
  | [_], h => h
  | a :: b :: rs, h => fun r hr => by
    rcases List.mem_cons.mp hr with rfl | hr
    · exact gridOverlay_rising (h b (by simp)) (h a (by simp))
    · exact pairRuns_rising (fun x hx => h x (by simp [hx])) r hr

theorem pairRuns_find (a : Nat) : ∀ {rs : List Grid}, (∀ r ∈ rs, Rising r) → ∀ o : Option Pixel,
    (pairRuns rs).foldl (fun o r => (findWrite r a).or o) o = rs.foldl (fun o r => (findWrite r a).or o) o
  | [], _, _ => rfl
  | [_], _, _ => rfl
  | x :: y :: rs, h, o => by
    simp only [pairRuns, List.foldl_cons]
    rw [pairRuns_find a (fun r hr => h r (by simp [hr])), findWrite_overlay (h y (by simp)), Option.or_assoc]

theorem mergeRuns_spec (a n : Nat) {rs : List Grid} (h : ∀ r ∈ rs, Rising r) :
    (∀ r ∈ mergeRuns n rs, Rising r) ∧ ∀ o : Option Pixel,
      (mergeRuns n rs).foldl (fun o r => (findWrite r a).or o) o = rs.foldl (fun o r => (findWrite r a).or o) o := by
  induction n generalizing rs with
  | zero => exact ⟨h, fun _ => rfl⟩
  | succ n ih =>
    obtain ⟨h1, h2⟩ := ih (pairRuns_rising h)
    exact ⟨h1, fun o => (h2 o).trans (pairRuns_find a h o)⟩

theorem findWrite_overlays (a : Nat) {rs : List Grid} (h : ∀ r ∈ rs, Rising r) (g : Grid) :
    findWrite (rs.foldl (fun g r => gridOverlay r g) g) a = rs.foldl (fun o r => (findWrite r a).or o) (findWrite g a) := by
  induction rs generalizing g with
  | nil => rfl
  | cons r rs ih =>
    rw [List.foldl_cons, List.foldl_cons, ih (fun x hx => h x (by simp [hx])), findWrite_overlay (h r (by simp))]

theorem singles_rising (ws : List Cell) : ∀ r ∈ ws.map (fun w => [w]), Rising r := by
  intro r hr
  obtain ⟨w, -, rfl⟩ := List.mem_map.mp hr
  exact List.pairwise_singleton _ w

/-! ### Reads after a list of writes -/

/-- A read after a list of writes: the writes are made one after another, a later one winning (40_geometry_stamper.md R129). -/
theorem gridRead_writes (ws : List Cell) (g : Grid) (a : Nat) :
    gridRead (gridWrites ws g) a = ws.foldl (fun p w => if a = w.1 then w.2 else p) (gridRead g a) := by
  obtain ⟨h1, h2⟩ := mergeRuns_spec a 11 (singles_rising ws)
  rw [gridRead_eq_findWrite, gridWrites, findWrite_overlays a h1, h2, gridRead_eq_findWrite]
  generalize findWrite g a = o
  clear h1 h2
  induction ws generalizing o with
  | nil => rfl
  | cons w ws ih =>
    rw [List.map_cons, List.foldl_cons, List.foldl_cons, ih]
    by_cases h : a = w.1 <;> simp [findWrite, h]

/-- Writes elsewhere leave a cell alone. -/
theorem gridRead_writes_of_forall_ne {ws : List Cell} {a : Nat} (h : ∀ w ∈ ws, w.1 ≠ a) (g : Grid) :
    gridRead (gridWrites ws g) a = gridRead g a := by
  rw [gridRead_writes]
  generalize gridRead g a = q
  induction ws with
  | nil => rfl
  | cons w ws ih => rw [List.foldl_cons, if_neg (h w (by simp)).symm, ih (fun x hx => h x (by simp [hx]))]

/-- A list of writes leaves at an address one of its own pixels for that address, or the old one where it has none. -/
theorem gridRead_writes_mem (ws : List Cell) (g : Grid) (a : Nat) :
    (a, gridRead (gridWrites ws g) a) ∈ ws ∨ (∀ w ∈ ws, w.1 ≠ a) ∧ gridRead (gridWrites ws g) a = gridRead g a := by
  by_cases hn : ∀ w ∈ ws, w.1 ≠ a
  · exact .inr ⟨hn, gridRead_writes_of_forall_ne hn g⟩
  · left
    have hex : ∃ w ∈ ws, w.1 = a := by simpa using hn
    clear hn
    rw [gridRead_writes]
    generalize gridRead g a = q
    induction ws generalizing q with
    | nil => simp at hex
    | cons w ws ih =>
      rw [List.foldl_cons]
      by_cases h : ∃ w' ∈ ws, w'.1 = a
      · exact List.mem_cons_of_mem _ (ih h _)
      · have hw : w.1 = a := by
          obtain ⟨x, hx, e⟩ := hex
          rcases List.mem_cons.mp hx with rfl | hx
          · exact e
          · exact absurd ⟨x, hx, e⟩ h
        subst hw
        have keep : ∀ p, ws.foldl (fun p x => if w.1 = x.1 then x.2 else p) p = p := by
          intro p
          have h' : ∀ x ∈ ws, x.1 ≠ w.1 := fun x hx e => h ⟨x, hx, e⟩
          clear h ih hex
          induction ws with
          | nil => rfl
          | cons x ws ih => rw [List.foldl_cons, if_neg (h' x (by simp)).symm, ih (fun y hy => h' y (by simp [hy]))]
        rw [keep, if_pos rfl]; exact List.mem_cons_self

/-- Where all writes to an address carry one pixel and there is one, that pixel is read. -/
theorem gridRead_writes_of_agree {ws : List Cell} {a : Nat} {p : Pixel} (hin : (a, p) ∈ ws)
    (hall : ∀ w ∈ ws, w.1 = a → w.2 = p) (g : Grid) : gridRead (gridWrites ws g) a = p := by
  rcases gridRead_writes_mem ws g a with h | ⟨h, -⟩
  · exact hall _ h rfl
  · exact absurd rfl (h _ hin)

/-- Writes to an address that may or may not be there: the agreed pixel, or the old one. -/
theorem gridRead_writes_cases {ws : List Cell} {a : Nat} {p : Pixel} (hall : ∀ w ∈ ws, w.1 = a → w.2 = p) (g : Grid) :
    gridRead (gridWrites ws g) a = p ∨ (∀ w ∈ ws, w.1 ≠ a) ∧ gridRead (gridWrites ws g) a = gridRead g a := by
  rcases gridRead_writes_mem ws g a with h | h
  · exact .inl (hall _ h rfl)
  · exact .inr h

/-! ### Listed cells after writes -/

theorem mem_gridPut {g : Grid} {a : Nat} {p : Pixel} {x : Cell} (h : x ∈ gridPut g a p) : x = (a, p) ∨ x ∈ g := by
  induction g with
  | nil => exact .inl (by simpa [gridPut] using h)
  | cons y g ih =>
    obtain ⟨k, q⟩ := y
    by_cases h1 : a < k
    · simpa [gridPut, h1] using h
    · by_cases h2 : a = k
      · subst h2
        simp only [gridPut, h1, if_false, if_true, List.mem_cons] at h ⊢
        exact h.imp_right .inr
      · simp only [gridPut, h1, h2, if_false, List.mem_cons] at h ⊢
        rcases h with h | h
        · exact .inr (.inl h)
        · rcases ih h with h | h
          · exact .inl h
          · exact .inr (.inr h)

theorem mem_gridErase {g : Grid} {a : Nat} {x : Cell} (h : x ∈ gridErase g a) : x ∈ g :=
  List.mem_of_mem_filter h

theorem mem_gridWrite {g : Grid} {a : Nat} {p : Pixel} {x : Cell} (h : x ∈ gridWrite g a p) : x = (a, p) ∨ x ∈ g := by
  unfold gridWrite at h
  split at h
  · exact .inr (mem_gridErase h)
  · exact mem_gridPut h

theorem mem_pairRuns {x : Cell} : ∀ {rs : List Grid} {r : Grid}, r ∈ pairRuns rs → x ∈ r → ∃ r' ∈ rs, x ∈ r'
  | [], _, h, hx => ⟨_, h, hx⟩
  | [_], _, h, hx => ⟨_, h, hx⟩
  | a :: b :: rs, r, h, hx => by
    rcases List.mem_cons.mp h with rfl | h
    · rcases mem_gridOverlay hx with hx | hx
      · exact ⟨b, by simp, hx⟩
      · exact ⟨a, by simp, hx⟩
    · obtain ⟨r', hr', hx⟩ := mem_pairRuns h hx
      exact ⟨r', by simp [hr'], hx⟩

theorem mem_mergeRuns {x : Cell} {n : Nat} {rs : List Grid} {r : Grid} (h : r ∈ mergeRuns n rs) (hx : x ∈ r) :
    ∃ r' ∈ rs, x ∈ r' := by
  induction n generalizing rs with
  | zero => exact ⟨r, h, hx⟩
  | succ n ih =>
    obtain ⟨r', h', hx'⟩ := ih h
    exact mem_pairRuns h' hx'

/-- A cell listed after a list of writes is one of the writes or was listed before. -/
theorem mem_gridWrites {ws : List Cell} {g : Grid} {x : Cell} (h : x ∈ gridWrites ws g) : x ∈ ws ∨ x ∈ g := by
  have overlays : ∀ {rs : List Grid} {g : Grid}, x ∈ rs.foldl (fun g r => gridOverlay r g) g →
      (∃ r ∈ rs, x ∈ r) ∨ x ∈ g := by
    intro rs
    induction rs with
    | nil => exact fun h => .inr h
    | cons r rs ih =>
      intro g h
      rcases ih h with ⟨r', hr', hx⟩ | h
      · exact .inl ⟨r', by simp [hr'], hx⟩
      · rcases mem_gridOverlay h with h | h
        · exact .inl ⟨r, by simp, h⟩
        · exact .inr h
  unfold gridWrites at h
  rcases overlays h with ⟨r, hr, hx⟩ | h
  · obtain ⟨r', hr', hx⟩ := mem_mergeRuns hr hx
    obtain ⟨w, hw, rfl⟩ := List.mem_map.mp hr'
    rw [List.mem_singleton.mp hx]
    exact .inl hw
  · exact .inr h

/-! ### The canonical form -/

theorem gridWf_nil : gridWf [] := by simp [gridWf]

theorem gridPut_wf {g : Grid} (h : gridWf g) (a : Nat) {p : Pixel} (hp : p ≠ clearedPixel) : gridWf (gridPut g a p) := by
  obtain ⟨hs, hv⟩ := h
  refine ⟨?_, fun x hx => ?_⟩
  · clear hv
    induction g with
    | nil => simp [gridPut]
    | cons y g ih =>
      obtain ⟨k, q⟩ := y
      obtain ⟨h1, h2⟩ := List.pairwise_cons.mp hs
      by_cases hlt : a < k
      · simp only [gridPut, hlt, if_true, List.pairwise_cons]
        exact ⟨fun x hx => by
          rcases List.mem_cons.mp hx with rfl | hx
          · exact hlt
          · exact lt_trans hlt (h1 x hx), h1, h2⟩
      · by_cases heq : a = k
        · subst heq; simp only [gridPut, hlt, if_false, if_true, List.pairwise_cons]; exact ⟨h1, h2⟩
        · simp only [gridPut, hlt, heq, if_false, List.pairwise_cons]
          refine ⟨fun x hx => ?_, ih h2⟩
          rcases mem_gridPut hx with rfl | hx
          · exact lt_of_le_of_ne (not_lt.mp hlt) (Ne.symm heq)
          · exact h1 x hx
  · rcases mem_gridPut hx with rfl | hx
    · exact hp
    · exact hv x hx

theorem gridErase_wf {g : Grid} (h : gridWf g) (a : Nat) : gridWf (gridErase g a) :=
  ⟨h.1.filter _, fun x hx => h.2 x (mem_gridErase hx)⟩

/-- A write keeps the canonical form. -/
theorem gridWrite_wf {g : Grid} (h : gridWf g) (a : Nat) (p : Pixel) : gridWf (gridWrite g a p) := by
  unfold gridWrite
  split
  · exact gridErase_wf h a
  · exact gridPut_wf h a ‹_›

/-- A list of writes, none of the cleared pixel, keeps the canonical form. -/
theorem gridWrites_wf {g : Grid} (h : gridWf g) {ws : List Cell} (hw : ∀ w ∈ ws, w.2 ≠ clearedPixel) :
    gridWf (gridWrites ws g) := by
  refine ⟨?_, fun x hx => (mem_gridWrites hx).elim (hw x) (h.2 x)⟩
  have overlays : ∀ {rs : List Grid} {g : Grid}, (∀ r ∈ rs, Rising r) → Rising g →
      Rising (rs.foldl (fun g r => gridOverlay r g) g) := by
    intro rs
    induction rs with
    | nil => exact fun _ hg => hg
    | cons r rs ih => exact fun hr hg => ih (fun x hx => hr x (by simp [hx])) (gridOverlay_rising (hr r (by simp)) hg)
  unfold gridWrites
  exact overlays (mergeRuns_spec 0 11 (singles_rising ws)).1 h.1

theorem gridRead_eq_of_mem {g : Grid} (h : gridWf g) {x : Cell} (hx : x ∈ g) : gridRead g x.1 = x.2 := by
  obtain ⟨hs, -⟩ := h
  induction g with
  | nil => simp at hx
  | cons y g ih =>
    obtain ⟨h1, h2⟩ := List.pairwise_cons.mp hs
    rcases List.mem_cons.mp hx with rfl | hx
    · simp [gridRead]
    · have : x.1 ≠ y.1 := (h1 x hx).ne'
      simp [gridRead, this, ih hx h2]

theorem mem_of_gridRead_ne {g : Grid} {a : Nat} (h : gridRead g a ≠ clearedPixel) : (a, gridRead g a) ∈ g := by
  induction g with
  | nil => simp [gridRead] at h
  | cons y g ih =>
    obtain ⟨k, q⟩ := y
    by_cases ha : a = k
    · subst ha; simp [gridRead]
    · simp only [gridRead, ha, if_false] at h ⊢
      exact List.mem_cons_of_mem _ (ih h)

/-- Canonical grids with the same reads are the same list. -/
theorem gridWf_ext {g h : Grid} (hg : gridWf g) (hh : gridWf h) (e : ∀ a, gridRead g a = gridRead h a) : g = h := by
  have sub : ∀ {g h : Grid}, gridWf g → (∀ a, gridRead g a = gridRead h a) → g ⊆ h := by
    intro g h hg e x hx
    have hr : gridRead h x.1 = x.2 := (e x.1).symm.trans (gridRead_eq_of_mem hg hx)
    have := mem_of_gridRead_ne (g := h) (a := x.1) (by rw [hr]; exact hg.2 x hx)
    rwa [hr] at this
  have nodup : ∀ {g : Grid}, gridWf g → g.Nodup := fun w => w.1.imp (fun hlt heq => by simp [heq] at hlt)
  have perm : g.Perm h :=
    (List.perm_ext_iff_of_nodup (nodup hg) (nodup hh)).mpr fun x =>
      ⟨fun hx => sub hg e hx, fun hx => sub hh (fun a => (e a).symm) hx⟩
  exact perm.eq_of_pairwise (fun a b _ _ h1 h2 => absurd h1 (lt_asymm h2)) hg.1 hh.1

/-- On a canonical grid a list of writes is one write after another (40_geometry_stamper.md R129). -/
theorem gridWrites_eq_foldl {g : Grid} (h : gridWf g) {ws : List Cell} (hw : ∀ w ∈ ws, w.2 ≠ clearedPixel) :
    gridWrites ws g = ws.foldl (fun g w => gridWrite g w.1 w.2) g := by
  have inTurn : ∀ {ws : List Cell} {g : Grid}, gridWf g → gridWf (ws.foldl (fun g w => gridWrite g w.1 w.2) g) := by
    intro ws
    induction ws with
    | nil => exact fun h => h
    | cons w ws ih => exact fun h => ih (gridWrite_wf h w.1 w.2)
  refine gridWf_ext (gridWrites_wf h hw) (inTurn h) fun a => ?_
  rw [gridRead_writes]
  clear h hw inTurn
  induction ws generalizing g with
  | nil => rfl
  | cons w ws ih => rw [List.foldl_cons, List.foldl_cons, ← ih, gridRead_write]

end Sys2Proof.Machine
end

