-- ==== Sys2Proof/Laws/Pixel.lean ====
section
/-!
SUPPORT. The fields of a pixel word: what each reads from a constructed pixel, that the four fields determine the word, and what
assigning `invert` leaves.
-/

namespace Sys2Proof.Machine

@[simp] theorem pixBlack_pix (role : Role) (b i : Bool) (o : BitVec 4) : pixBlack (pix role b i o) = b := by
  cases role <;> cases b <;> cases i <;> revert o <;> decide

@[simp] theorem pixInvert_pix (role : Role) (b i : Bool) (o : BitVec 4) : pixInvert (pix role b i o) = i := by
  cases role <;> cases b <;> cases i <;> revert o <;> decide

@[simp] theorem pixRole_pix (role : Role) (b i : Bool) (o : BitVec 4) : pixRole (pix role b i o) = roleCode role := by
  cases role <;> cases b <;> cases i <;> revert o <;> decide

@[simp] theorem pixOffset_pix (role : Role) (b i : Bool) (o : BitVec 4) : pixOffset (pix role b i o) = o := by
  cases role <;> cases b <;> cases i <;> revert o <;> decide

theorem roleCode_ne_reserved (role : Role) : roleCode role ≠ 7 := by
  cases role <;> decide

/-- Every constructed pixel is legal (30_encoding.md R85). -/
@[simp] theorem pixLegal_pix (role : Role) (b i : Bool) (o : BitVec 4) : pixLegal (pix role b i o) = true := by
  simpa [pixLegal] using roleCode_ne_reserved role

theorem roleCode_injective {a b : Role} (h : roleCode a = roleCode b) : a = b := by
  cases a <;> cases b <;> first | rfl | (exact absurd h (by decide))

/-- Only the role none, light, not inverted, offset 0 makes the cleared pixel. -/
theorem pix_ne_cleared {role : Role} (h : role ≠ .none) (b i : Bool) (o : BitVec 4) : pix role b i o ≠ clearedPixel := by
  intro e
  have : roleCode role = pixRole clearedPixel := by rw [← e, pixRole_pix]
  exact h (roleCode_injective (this.trans (by decide)))

theorem pixIsPayload_pix (role : Role) (b i : Bool) (o : BitVec 4) :
    pixIsPayload (pix role b i o) = (role == .data || role == .check) := by
  simp only [pixIsPayload, pixRole_pix]; cases role <;> decide

@[simp] theorem pixIsPayload_cleared : pixIsPayload clearedPixel = false := by decide

@[simp] theorem pixLegal_cleared : pixLegal clearedPixel = true := by decide

/-- Assigning `invert` sets that flag. -/
@[simp] theorem pixInvert_assign (p : Pixel) (b : Bool) : pixInvert (pixAssignInvert p b) = b := by
  revert p b; decide +kernel

/-- Assigning `invert` keeps `black`. -/
@[simp] theorem pixBlack_assign (p : Pixel) (b : Bool) : pixBlack (pixAssignInvert p b) = pixBlack p := by
  revert p b; decide +kernel

/-- Assigning `invert` keeps the role. -/
@[simp] theorem pixRole_assign (p : Pixel) (b : Bool) : pixRole (pixAssignInvert p b) = pixRole p := by
  revert p b; decide +kernel

/-- Assigning `invert` keeps the offset. -/
@[simp] theorem pixOffset_assign (p : Pixel) (b : Bool) : pixOffset (pixAssignInvert p b) = pixOffset p := by
  revert p b; decide +kernel

@[simp] theorem pixIsPayload_assign (p : Pixel) (b : Bool) : pixIsPayload (pixAssignInvert p b) = pixIsPayload p := by
  simp [pixIsPayload]

@[simp] theorem pixLegal_assign (p : Pixel) (b : Bool) : pixLegal (pixAssignInvert p b) = pixLegal p := by
  simp [pixLegal]

end Sys2Proof.Machine
end

