-- ==== Sys2Proof/Laws/Format.lean ====
section
/-!
SUPPORT. The format writer: the thirty cells lie in every grid the block builds and are distinct (41_format_bch.md R158), and
what the writer leaves in each cell.
-/

namespace Sys2Proof.Machine

/-- The thirty cells lie in a grid of side at least 15 (41_format_bch.md R158). -/
theorem formatCellsFit_default {S : Nat} (h : 15 ≤ S) : formatCellsFit Config.formatCells S = true := by
  simp only [formatCellsFit, List.all_eq_true, List.mem_range, Bool.and_eq_true, inSquare_iff, Config.formatCells,
    defaultFormatCells, pathA, pathB]
  intro k hk
  split <;> split <;> (try split) <;> (refine ⟨⟨?_, ?_⟩, ?_, ?_⟩ <;> dsimp only <;> omega)

theorem pathA_bounds {k : Nat} (h : k < 15) : (pathA k).1 ≤ 8 ∧ (pathA k).2 ≤ 8 := by
  unfold pathA; split
  · dsimp only; omega
  · split
    · dsimp only; omega
    · split <;> dsimp only <;> omega

theorem pathB_bounds {S k : Nat} (h : k < 15) (hS : 21 ≤ S) (hS' : S < 256) :
    (pathB S k).1 < S ∧ (pathB S k).2 < S ∧ (8 < (pathB S k).1 ∨ 8 < (pathB S k).2) := by
  unfold pathB; split <;> dsimp only <;> omega

theorem pathA_inj {j k : Nat} (hj : j < 15) (hk : k < 15) (h : pathA j = pathA k) : j = k := by
  have all : ∀ a : Fin 15, ∀ b : Fin 15, pathA a = pathA b → a = b := by decide
  exact congrArg Fin.val (all ⟨j, hj⟩ ⟨k, hk⟩ h)

theorem pathB_inj {S j k : Nat} (hS : 21 ≤ S) (hj : j < 15) (hk : k < 15) (h : pathB S j = pathB S k) : j = k := by
  unfold pathB at h; split at h <;> split at h <;> simp only [Prod.mk.injEq] at h <;> omega

/-- A write of the format writer is the pixel of its bit at one of that bit's two cells. -/
theorem mem_formatWrites {cells : FormatCells} {S : Nat} {cw : BitVec 15} {w : Cell} :
    w ∈ formatWrites cells S cw ↔ ∃ k < 15, w = (cellKey (cells S k).1.1 (cells S k).1.2, formatPixel cw k) ∨
      w = (cellKey (cells S k).2.1 (cells S k).2.2, formatPixel cw k) := by
  simp [formatWrites]

/-- The format writer never writes the cleared pixel. -/
theorem formatWrites_ne_cleared {cells : FormatCells} {S : Nat} {cw : BitVec 15} :
    ∀ w ∈ formatWrites cells S cw, w.2 ≠ clearedPixel := by
  intro w hw
  have pixel : ∀ k, formatPixel cw k ≠ clearedPixel := fun k =>
    pix_ne_cleared (role := .format) (by simp) (formatBlack cw k) (formatInvert k) (BitVec.ofNat 4 k)
  obtain ⟨k, -, rfl | rfl⟩ := mem_formatWrites.mp hw
  · exact pixel k
  · exact pixel k

/-- Where every format cell of a table fits, the format writer writes inside the grid alone (20_memory.md R61). -/
theorem formatWrites_inside {cells : FormatCells} {S : Nat} (h : formatCellsFit cells S = true) (hS : S < 256) {cw : BitVec 15} :
    ∀ w ∈ formatWrites cells S cw, inSquare S (keyRow w.1) (keyCol w.1) = true := by
  intro w hw
  obtain ⟨k, hk, hw⟩ := mem_formatWrites.mp hw
  have fit := List.all_eq_true.mp h k (by simpa using hk)
  simp only [Bool.and_eq_true, inSquare_iff] at fit
  rcases hw with rfl | rfl <;> dsimp only <;> rw [keyRow_cellKey (by omega), keyCol_cellKey (by omega)] <;> simp [fit]

/-- The writes to one format cell all carry the pixel of one bit: the thirty cells are distinct (41_format_bch.md R158). -/
theorem formatWrites_agree {S : Nat} (hS : 21 ≤ S) (hS' : S < 256) {cw : BitVec 15} {k : Nat} (hk : k < 15) {a : Nat}
    (ha : a = cellKey (pathA k).1 (pathA k).2 ∨ a = cellKey (pathB S k).1 (pathB S k).2) :
    ∀ w ∈ formatWrites Config.formatCells S cw, w.1 = a → w.2 = formatPixel cw k := by
  rintro w hw rfl
  obtain ⟨j, hj, hw⟩ := mem_formatWrites.mp hw
  simp only [Config.formatCells, defaultFormatCells] at hw
  have eqA := pathA_bounds hj
  have eqA' := pathA_bounds hk
  have eqB := pathB_bounds hj hS hS'
  have eqB' := pathB_bounds hk hS hS'
  rcases hw with rfl | rfl <;> rcases ha with ha | ha <;> rw [cellKey_inj (by omega) (by omega)] at ha
  · rw [pathA_inj hj hk (Prod.ext ha.1 ha.2)]
  · omega
  · omega
  · rw [pathB_inj hS hj hk (Prod.ext ha.1 ha.2)]

/-- What the format writer leaves: the pixel of bit k at both of its cells (41_format_bch.md R159). -/
theorem gridRead_format {S : Nat} (hS : 21 ≤ S) (hS' : S < 256) {cw : BitVec 15} {k : Nat} (hk : k < 15) {a : Nat}
    (ha : a = cellKey (pathA k).1 (pathA k).2 ∨ a = cellKey (pathB S k).1 (pathB S k).2) (g : Grid) :
    gridRead (gridWrites (formatWrites Config.formatCells S cw) g) a = formatPixel cw k := by
  refine gridRead_writes_of_agree ?_ (formatWrites_agree hS hS' hk ha) g
  refine mem_formatWrites.mpr ⟨k, hk, ?_⟩
  rcases ha with rfl | rfl
  · exact .inl rfl
  · exact .inr rfl

/-- The format writer leaves every other address alone. -/
theorem gridRead_format_other {S : Nat} {cw : BitVec 15} {a : Nat} {cells : FormatCells}
    (h : ∀ k < 15, a ≠ cellKey (cells S k).1.1 (cells S k).1.2 ∧ a ≠ cellKey (cells S k).2.1 (cells S k).2.2) (g : Grid) :
    gridRead (gridWrites (formatWrites cells S cw) g) a = gridRead g a := by
  refine gridRead_writes_of_forall_ne (fun w hw e => ?_) g
  obtain ⟨k, hk, rfl | rfl⟩ := mem_formatWrites.mp hw
  · exact (h k hk).1 e.symm
  · exact (h k hk).2 e.symm

/-- Flipping 0x5412 again gives back the code word (41_format_bch.md R155). -/
theorem formatDrawn_xor (l : BitVec 2) (m : BitVec 3) : formatDrawn l m ^^^ 0x5412 = formatCodeWord l m := by
  simp [formatDrawn, Config.formatXor]

end Sys2Proof.Machine
end

