-- ==== Sys2Proof/Laws/Geometry.lean ====
section
/-!
SUPPORT. The pattern stamper: which cells each of its steps writes and with what, under any alignment table, and what every
cell of a stamped grid can hold.
-/

namespace Sys2Proof.Machine

@[simp] theorem mem_squareOffsets {n : Nat} {d : Nat × Nat} : d ∈ squareOffsets n ↔ d.1 < n ∧ d.2 < n := by
  obtain ⟨y, x⟩ := d
  simp [squareOffsets]

/-- A write of the timing step is a cell of row 6 or of column 6 (40_geometry_stamper.md R122). -/
theorem mem_timingWrites {S : Nat} {w : Cell} :
    w ∈ timingWrites S ↔
      ∃ k < S, w = patternWrite .timing (timingBlack k) 6 k ∨ w = patternWrite .timing (timingBlack k) k 6 := by
  simp only [timingWrites, List.mem_append, List.mem_map, List.mem_range]
  constructor
  · rintro (⟨k, hk, rfl⟩ | ⟨k, hk, rfl⟩)
    · exact ⟨k, hk, .inl rfl⟩
    · exact ⟨k, hk, .inr rfl⟩
  · rintro ⟨k, hk, rfl | rfl⟩
    · exact .inl ⟨k, hk, rfl⟩
    · exact .inr ⟨k, hk, rfl⟩

/-- A write of a finder box (40_geometry_stamper.md R123). -/
theorem mem_finderWrites {y x : Nat} {w : Cell} :
    w ∈ finderWrites y x ↔
      ∃ dy < 7, ∃ dx < 7, w = patternWrite .position (finderBlack dy dx) (y + dy) (x + dx) := by
  simp only [finderWrites, List.mem_map, mem_squareOffsets, Prod.exists]
  constructor
  · rintro ⟨dy, dx, ⟨h1, h2⟩, rfl⟩; exact ⟨dy, h1, dx, h2, rfl⟩
  · rintro ⟨dy, h1, dx, h2, rfl⟩; exact ⟨dy, dx, ⟨h1, h2⟩, rfl⟩

/-- A write of a light border, by the cell it goes to: one cell around the box and inside the grid (40_geometry_stamper.md R124). -/
theorem mem_borderWrites {S y x : Nat} {w : Cell} :
    w ∈ borderWrites S y x ↔
      ∃ r < S, ∃ c < S, (y ≤ r + 1 ∧ r ≤ y + 7) ∧ (x ≤ c + 1 ∧ c ≤ x + 7) ∧
        ¬((y ≤ r ∧ r ≤ y + 6) ∧ (x ≤ c ∧ c ≤ x + 6)) ∧ w = patternWrite .position false r c := by
  simp only [borderWrites, List.mem_map, List.mem_filter, mem_squareOffsets, isBorderCell, Bool.and_eq_true,
    Bool.not_eq_true', Bool.and_eq_false_iff, decide_eq_true_eq, decide_eq_false_iff_not, inSquare_iff, Prod.exists]
  constructor
  · rintro ⟨dy, dx, ⟨⟨h1, h2⟩, h3, ⟨h4, h5⟩, h6, h7⟩, rfl⟩
    refine ⟨y + dy - 1, h6, x + dx - 1, h7, by omega, by omega, by omega, rfl⟩
  · rintro ⟨r, hr, c, hc, h1, h2, h3, rfl⟩
    refine ⟨r + 1 - y, c + 1 - x, ⟨⟨by omega, by omega⟩, by omega, ⟨by omega, by omega⟩, by omega, by omega⟩, ?_⟩
    rw [show y + (r + 1 - y) - 1 = r by omega, show x + (c + 1 - x) - 1 = c by omega]

/-- A write of the position step belongs to one of the three corners (40_geometry_stamper.md R123, R124). -/
theorem mem_positionWrites {S : Nat} {w : Cell} :
    w ∈ positionWrites S ↔
      ∃ q ∈ finderCorners S, w ∈ finderWrites q.1 q.2 ∨ w ∈ borderWrites S q.1 q.2 := by
  simp [positionWrites, List.mem_append]

/-- A write of an alignment box (40_geometry_stamper.md R125). -/
theorem mem_alignmentWrites {y x : Nat} {w : Cell} :
    w ∈ alignmentWrites y x ↔
      ∃ dy < 5, ∃ dx < 5, w = patternWrite .alignment (alignmentBlack dy dx) (y + dy) (x + dx) := by
  simp only [alignmentWrites, List.mem_map, mem_squareOffsets, Prod.exists]
  constructor
  · rintro ⟨dy, dx, ⟨h1, h2⟩, rfl⟩; exact ⟨dy, h1, dx, h2, rfl⟩
  · rintro ⟨dy, h1, dx, h2, rfl⟩; exact ⟨dy, dx, ⟨h1, h2⟩, rfl⟩

/-- No position of the walk exceeds S − 9, under any table (40_geometry_stamper.md R126). -/
theorem axisWalk_le {S apos astride fuel x p : Nat} (h : p ∈ axisWalk S apos astride fuel x) : p ≤ S - 9 := by
  induction fuel generalizing x with
  | zero => simp [axisWalk] at h
  | succ n ih =>
    unfold axisWalk at h
    split at h
    · rcases List.mem_cons.mp h with rfl | h
      · assumption
      · exact ih h
    · simp at h

/-- A placed box has both coordinates on the axis and is not skipped (40_geometry_stamper.md R126, R128). -/
theorem mem_placedBoxes {table : AlignTable} {v : Nat} {q : Nat × Nat} :
    q ∈ placedBoxes table v ↔
      q.1 ∈ axisPositions table v ∧ q.2 ∈ axisPositions table v ∧ boxSkipped (planSize v) q.1 q.2 = false := by
  obtain ⟨y, x⟩ := q
  simp [placedBoxes, and_assoc]

/-- Under any table a placed box lies in the grid and shares no cell with a corner zone (40_geometry_stamper.md R128). -/
theorem placedBoxes_clear {table : AlignTable} {v : Nat} {q : Nat × Nat} (h : q ∈ placedBoxes table v) :
    q.1 ≤ planSize v - 9 ∧ q.2 ≤ planSize v - 9 ∧ ¬(q.1 ≤ 7 ∧ q.2 ≤ 7) ∧ ¬(q.1 ≤ 7 ∧ planSize v - 8 ≤ q.2 + 4) ∧
      ¬(planSize v - 8 ≤ q.1 + 4 ∧ q.2 ≤ 7) := by
  obtain ⟨h1, h2, h3⟩ := mem_placedBoxes.mp h
  refine ⟨axisWalk_le h1, axisWalk_le h2, ?_⟩
  simp only [boxSkipped, Bool.or_eq_false_iff, Bool.and_eq_false_iff, decide_eq_false_iff_not] at h3
  omega

/-- A write of the alignment step is one of a placed box (40_geometry_stamper.md R125). -/
theorem mem_alignmentStep {table : AlignTable} {v : Nat} {w : Cell} :
    w ∈ alignmentStep table v ↔ ∃ q ∈ placedBoxes table v, w ∈ alignmentWrites q.1 q.2 := by
  simp [alignmentStep]

/-- Everything the stamper can write: a position, alignment or timing pixel, not inverted, offset 0, at a cell of the grid. -/
theorem mem_stampWrites {table : AlignTable} {v : Nat} (hv : 1 ≤ v) {w : Cell}
    (h : w ∈ timingWrites (planSize v) ++ positionWrites (planSize v) ++ alignmentStep table v) :
    ∃ role b r c, (role = .position ∨ role = .alignment ∨ role = .timing) ∧ r < planSize v ∧ c < planSize v ∧
      w = patternWrite role b r c := by
  have hS : 21 ≤ planSize v := by unfold planSize; omega
  rcases List.mem_append.mp h with h | h
  · rcases List.mem_append.mp h with h | h
    · obtain ⟨k, hk, rfl | rfl⟩ := mem_timingWrites.mp h
      · exact ⟨_, _, _, _, .inr (.inr rfl), by omega, hk, rfl⟩
      · exact ⟨_, _, _, _, .inr (.inr rfl), hk, by omega, rfl⟩
    · obtain ⟨q, hq, h | h⟩ := mem_positionWrites.mp h
      · obtain ⟨dy, h1, dx, h2, rfl⟩ := mem_finderWrites.mp h
        have : q.1 ≤ planSize v - 7 ∧ q.2 ≤ planSize v - 7 := by
          simp only [finderCorners, List.mem_cons, List.not_mem_nil, or_false] at hq
          rcases hq with rfl | rfl | rfl <;> simp
        exact ⟨_, _, _, _, .inl rfl, by omega, by omega, rfl⟩
      · obtain ⟨r, hr, c, hc, -, -, -, rfl⟩ := mem_borderWrites.mp h
        exact ⟨_, _, _, _, .inl rfl, hr, hc, rfl⟩
  · obtain ⟨q, hq, h⟩ := mem_alignmentStep.mp h
    obtain ⟨dy, h1, dx, h2, rfl⟩ := mem_alignmentWrites.mp h
    obtain ⟨h3, h4, -⟩ := placedBoxes_clear hq
    exact ⟨_, _, _, _, .inr (.inl rfl), by omega, by omega, rfl⟩

/-- A stamped grid is canonical. -/
theorem stampedGrid_wf (table : AlignTable) {v : Nat} (hv : 1 ≤ v) : gridWf (stampedGrid table v) :=
  gridWrites_wf gridWf_nil fun w hw => by
    obtain ⟨role, b, r, c, hr, -, -, rfl⟩ := mem_stampWrites hv hw
    have hn : role ≠ .none := by rcases hr with rfl | rfl | rfl <;> simp
    exact pix_ne_cleared hn b false 0

/-- Every cell a stamped grid lists: a position, alignment or timing pixel, not inverted, offset 0, inside the grid. -/
theorem mem_stampedGrid {table : AlignTable} {v : Nat} (hv : 1 ≤ v) {x : Cell} (h : x ∈ stampedGrid table v) :
    ∃ role b r c, (role = .position ∨ role = .alignment ∨ role = .timing) ∧ r < planSize v ∧ c < planSize v ∧
      x = patternWrite role b r c := by
  rcases mem_gridWrites h with h | h
  · exact mem_stampWrites hv h
  · simp [allocatedGrid] at h

/-- Every address of a stamped grid holds the cleared pixel or a position, alignment or timing pixel, not inverted, offset 0. -/
theorem gridRead_stampedGrid_cases (table : AlignTable) {v : Nat} (hv : 1 ≤ v) (a : Nat) :
    gridRead (stampedGrid table v) a = clearedPixel ∨
      ∃ role b, (role = .position ∨ role = .alignment ∨ role = .timing) ∧
        gridRead (stampedGrid table v) a = pix role b false 0 := by
  by_cases h : gridRead (stampedGrid table v) a = clearedPixel
  · exact .inl h
  · obtain ⟨role, b, r, c, hr, -, -, hx⟩ := mem_stampedGrid hv (mem_of_gridRead_ne h)
    rw [patternWrite, Prod.mk.injEq] at hx
    exact .inr ⟨role, b, hr, hx.2⟩

/-- No cell of a stamped grid has the data or check role (40_geometry_stamper.md R134). -/
theorem stampedGrid_no_payload (table : AlignTable) {v : Nat} (hv : 1 ≤ v) (a : Nat) :
    pixIsPayload (gridRead (stampedGrid table v) a) = false := by
  rcases gridRead_stampedGrid_cases table hv a with e | ⟨role, b, hr, e⟩
  · rw [e, pixIsPayload_cleared]
  · rw [e, pixIsPayload_pix]
    rcases hr with rfl | rfl | rfl <;> rfl

end Sys2Proof.Machine
end

