-- ==== Sys2Proof/Laws/Mask.lean ====
section
/-!
SUPPORT. The mask applicator as a memory operation: what each cell reads afterwards, and that the canonical form is kept.
-/

namespace Sys2Proof.Machine

@[simp] theorem maskCell_fst (m : BitVec 3) (S : Nat) (x : Cell) : (maskCell m S x).1 = x.1 := by
  unfold maskCell; split <;> rfl

@[simp] theorem maskPixel_cleared (m : BitVec 3) (i j : Nat) : maskPixel m i j clearedPixel = clearedPixel := by
  simp [maskPixel]

@[simp] theorem pixIsPayload_maskPixel (m : BitVec 3) (i j : Nat) (p : Pixel) :
    pixIsPayload (maskPixel m i j p) = pixIsPayload p := by
  unfold maskPixel; split <;> simp

@[simp] theorem pixLegal_maskPixel (m : BitVec 3) (i j : Nat) (p : Pixel) : pixLegal (maskPixel m i j p) = pixLegal p := by
  unfold maskPixel; split <;> simp

/-- A cell MASK writes is still no cleared pixel, and any other is kept. -/
theorem maskPixel_ne_cleared {m : BitVec 3} {i j : Nat} {p : Pixel} (h : p ≠ clearedPixel) :
    maskPixel m i j p ≠ clearedPixel := by
  by_cases hp : pixIsPayload p = true
  · intro e
    have := congrArg pixIsPayload e
    rw [pixIsPayload_maskPixel, hp, pixIsPayload_cleared] at this
    cases this
  · rwa [maskPixel, if_neg hp]

/-- What MASK leaves at an address: the masked pixel inside the square, the old one outside (42_mask_evaluator.md R191). -/
theorem gridRead_mask (m : BitVec 3) (S : Nat) (g : Grid) (a : Nat) :
    gridRead (maskGrid m S g) a =
      if inSquare S (keyRow a) (keyCol a) then maskPixel m (keyRow a) (keyCol a) (gridRead g a) else gridRead g a := by
  induction g with
  | nil => simp [maskGrid, gridRead]
  | cons x g ih =>
    obtain ⟨k, q⟩ := x
    by_cases h : a = k
    · subst h
      simp only [maskGrid, List.map_cons, maskCell, gridRead]
      split <;> simp
    · have hk : (maskCell m S (k, q)).1 = k := by simp
      rw [maskGrid, List.map_cons, ← Prod.mk.eta (p := maskCell m S (k, q)), hk]
      simp only [gridRead, h, if_false]
      exact ih

/-- MASK keeps the canonical form. -/
theorem maskGrid_wf {g : Grid} (h : gridWf g) (m : BitVec 3) (S : Nat) : gridWf (maskGrid m S g) := by
  refine ⟨?_, fun x hx => ?_⟩
  · simpa [maskGrid, List.pairwise_map] using h.1
  · obtain ⟨y, hy, rfl⟩ := List.mem_map.mp hx
    unfold maskCell
    split
    · exact maskPixel_ne_cleared (h.2 y hy)
    · exact h.2 y hy

/-- MASK keeps the addresses and the legality of the listed cells. -/
theorem mem_maskGrid {g : Grid} {m : BitVec 3} {S : Nat} {x : Cell} (h : x ∈ maskGrid m S g) :
    ∃ y ∈ g, x.1 = y.1 ∧ pixLegal x.2 = pixLegal y.2 ∧ pixIsPayload x.2 = pixIsPayload y.2 := by
  obtain ⟨y, hy, rfl⟩ := List.mem_map.mp h
  refine ⟨y, hy, by simp, ?_⟩
  unfold maskCell
  split <;> simp

/-- Without data and check cells MASK changes nothing (42_mask_evaluator.md R191). -/
theorem maskGrid_eq_self {g : Grid} (h : ∀ x ∈ g, pixIsPayload x.2 = false) (m : BitVec 3) (S : Nat) :
    maskGrid m S g = g := by
  unfold maskGrid
  conv_rhs => rw [← List.map_id g]
  refine List.map_congr_left fun x hx => ?_
  simp [maskCell, maskPixel, h x hx]

end Sys2Proof.Machine
end

