-- ==== Sys2Proof/Laws/State.lean ====
section
/-!
SUPPORT. What each named update of the state leaves in each field, so that no later proof unfolds a record update.
-/

namespace Sys2Proof.Machine

/-! ### respond -/

@[simp] theorem respond_stage (st : Status) (d : RegWord) (s : State) : (respond st d s).stage = s.stage := rfl
@[simp] theorem respond_version (st : Status) (d : RegWord) (s : State) : (respond st d s).version = s.version := rfl
@[simp] theorem respond_size (st : Status) (d : RegWord) (s : State) : (respond st d s).size = s.size := rfl
@[simp] theorem respond_level (st : Status) (d : RegWord) (s : State) : (respond st d s).level = s.level := rfl
@[simp] theorem respond_maskId (st : Status) (d : RegWord) (s : State) : (respond st d s).maskId = s.maskId := rfl
@[simp] theorem respond_err (st : Status) (d : RegWord) (s : State) : (respond st d s).err = s.err := rfl
@[simp] theorem respond_fcause (st : Status) (d : RegWord) (s : State) : (respond st d s).fcause = s.fcause := rfl
@[simp] theorem respond_fmtRaw (st : Status) (d : RegWord) (s : State) : (respond st d s).fmtRaw = s.fmtRaw := rfl
@[simp] theorem respond_fmtDrawn (st : Status) (d : RegWord) (s : State) : (respond st d s).fmtDrawn = s.fmtDrawn := rfl
@[simp] theorem respond_mvec (st : Status) (d : RegWord) (s : State) : (respond st d s).mvec = s.mvec := rfl
@[simp] theorem respond_pxData (st : Status) (d : RegWord) (s : State) : (respond st d s).pxData = s.pxData := rfl
@[simp] theorem respond_grid (st : Status) (d : RegWord) (s : State) : (respond st d s).grid = s.grid := rfl
@[simp] theorem respond_rsp (st : Status) (d : RegWord) (s : State) : (respond st d s).rsp = some (responseWord st d) := rfl
@[simp] theorem respond_host (st : Status) (d : RegWord) (s : State) : (respond st d s).host = s.host := rfl

/-! ### raiseFault -/

@[simp] theorem raiseFault_stage (cause : FaultCause) (s : State) : (raiseFault cause s).stage = s.stage := rfl
@[simp] theorem raiseFault_version (cause : FaultCause) (s : State) : (raiseFault cause s).version = s.version := rfl
@[simp] theorem raiseFault_size (cause : FaultCause) (s : State) : (raiseFault cause s).size = s.size := rfl
@[simp] theorem raiseFault_level (cause : FaultCause) (s : State) : (raiseFault cause s).level = s.level := rfl
@[simp] theorem raiseFault_maskId (cause : FaultCause) (s : State) : (raiseFault cause s).maskId = s.maskId := rfl
@[simp] theorem raiseFault_err (cause : FaultCause) (s : State) : (raiseFault cause s).err = s.err := rfl
@[simp] theorem raiseFault_fcause (cause : FaultCause) (s : State) : (raiseFault cause s).fcause = causeCode cause := rfl
@[simp] theorem raiseFault_fmtRaw (cause : FaultCause) (s : State) : (raiseFault cause s).fmtRaw = s.fmtRaw := rfl
@[simp] theorem raiseFault_fmtDrawn (cause : FaultCause) (s : State) : (raiseFault cause s).fmtDrawn = s.fmtDrawn := rfl
@[simp] theorem raiseFault_mvec (cause : FaultCause) (s : State) : (raiseFault cause s).mvec = s.mvec := rfl
@[simp] theorem raiseFault_pxData (cause : FaultCause) (s : State) : (raiseFault cause s).pxData = s.pxData := rfl
@[simp] theorem raiseFault_grid (cause : FaultCause) (s : State) : (raiseFault cause s).grid = s.grid := rfl
@[simp] theorem raiseFault_rsp (cause : FaultCause) (s : State) : (raiseFault cause s).rsp = some (responseWord .fault ((causeCode cause).setWidth 16)) := rfl
@[simp] theorem raiseFault_host (cause : FaultCause) (s : State) : (raiseFault cause s).host = s.host := rfl

/-! ### raiseInvalidVersion -/

@[simp] theorem raiseInvalidVersion_stage (s : State) : (raiseInvalidVersion s).stage = 0 := rfl
@[simp] theorem raiseInvalidVersion_version (s : State) : (raiseInvalidVersion s).version = 0 := rfl
@[simp] theorem raiseInvalidVersion_size (s : State) : (raiseInvalidVersion s).size = 0 := rfl
@[simp] theorem raiseInvalidVersion_level (s : State) : (raiseInvalidVersion s).level = 0 := rfl
@[simp] theorem raiseInvalidVersion_maskId (s : State) : (raiseInvalidVersion s).maskId = 0 := rfl
@[simp] theorem raiseInvalidVersion_err (s : State) : (raiseInvalidVersion s).err = 1 := rfl
@[simp] theorem raiseInvalidVersion_fcause (s : State) : (raiseInvalidVersion s).fcause = s.fcause := rfl
@[simp] theorem raiseInvalidVersion_fmtRaw (s : State) : (raiseInvalidVersion s).fmtRaw = s.fmtRaw := rfl
@[simp] theorem raiseInvalidVersion_fmtDrawn (s : State) : (raiseInvalidVersion s).fmtDrawn = s.fmtDrawn := rfl
@[simp] theorem raiseInvalidVersion_mvec (s : State) : (raiseInvalidVersion s).mvec = s.mvec := rfl
@[simp] theorem raiseInvalidVersion_pxData (s : State) : (raiseInvalidVersion s).pxData = s.pxData := rfl
@[simp] theorem raiseInvalidVersion_grid (s : State) : (raiseInvalidVersion s).grid = [] := rfl
@[simp] theorem raiseInvalidVersion_rsp (s : State) : (raiseInvalidVersion s).rsp = some (responseWord .invalidVersion 0) := rfl
@[simp] theorem raiseInvalidVersion_host (s : State) : (raiseInvalidVersion s).host = s.host := rfl

/-! ### refuseWhileFaulted -/

@[simp] theorem refuseWhileFaulted_stage (s : State) : (refuseWhileFaulted s).stage = s.stage := rfl
@[simp] theorem refuseWhileFaulted_version (s : State) : (refuseWhileFaulted s).version = s.version := rfl
@[simp] theorem refuseWhileFaulted_size (s : State) : (refuseWhileFaulted s).size = s.size := rfl
@[simp] theorem refuseWhileFaulted_level (s : State) : (refuseWhileFaulted s).level = s.level := rfl
@[simp] theorem refuseWhileFaulted_maskId (s : State) : (refuseWhileFaulted s).maskId = s.maskId := rfl
@[simp] theorem refuseWhileFaulted_err (s : State) : (refuseWhileFaulted s).err = s.err := rfl
@[simp] theorem refuseWhileFaulted_fcause (s : State) : (refuseWhileFaulted s).fcause = s.fcause := rfl
@[simp] theorem refuseWhileFaulted_fmtRaw (s : State) : (refuseWhileFaulted s).fmtRaw = s.fmtRaw := rfl
@[simp] theorem refuseWhileFaulted_fmtDrawn (s : State) : (refuseWhileFaulted s).fmtDrawn = s.fmtDrawn := rfl
@[simp] theorem refuseWhileFaulted_mvec (s : State) : (refuseWhileFaulted s).mvec = s.mvec := rfl
@[simp] theorem refuseWhileFaulted_pxData (s : State) : (refuseWhileFaulted s).pxData = s.pxData := rfl
@[simp] theorem refuseWhileFaulted_grid (s : State) : (refuseWhileFaulted s).grid = s.grid := rfl
@[simp] theorem refuseWhileFaulted_rsp (s : State) : (refuseWhileFaulted s).rsp = some (responseWord .fault (s.fcause.setWidth 16)) := rfl
@[simp] theorem refuseWhileFaulted_host (s : State) : (refuseWhileFaulted s).host = s.host := rfl

/-! ### idle -/

@[simp] theorem idle_stage (s : State) : (idle s).stage = s.stage := rfl
@[simp] theorem idle_version (s : State) : (idle s).version = s.version := rfl
@[simp] theorem idle_size (s : State) : (idle s).size = s.size := rfl
@[simp] theorem idle_level (s : State) : (idle s).level = s.level := rfl
@[simp] theorem idle_maskId (s : State) : (idle s).maskId = s.maskId := rfl
@[simp] theorem idle_err (s : State) : (idle s).err = s.err := rfl
@[simp] theorem idle_fcause (s : State) : (idle s).fcause = s.fcause := rfl
@[simp] theorem idle_fmtRaw (s : State) : (idle s).fmtRaw = s.fmtRaw := rfl
@[simp] theorem idle_fmtDrawn (s : State) : (idle s).fmtDrawn = s.fmtDrawn := rfl
@[simp] theorem idle_mvec (s : State) : (idle s).mvec = s.mvec := rfl
@[simp] theorem idle_pxData (s : State) : (idle s).pxData = s.pxData := rfl
@[simp] theorem idle_grid (s : State) : (idle s).grid = s.grid := rfl
@[simp] theorem idle_rsp (s : State) : (idle s).rsp = none := rfl
@[simp] theorem idle_host (s : State) : (idle s).host = s.host := rfl

/-! ### accept -/

@[simp] theorem accept_stage (later : List HostMove) (s : State) : (accept later s).stage = s.stage := rfl
@[simp] theorem accept_version (later : List HostMove) (s : State) : (accept later s).version = s.version := rfl
@[simp] theorem accept_size (later : List HostMove) (s : State) : (accept later s).size = s.size := rfl
@[simp] theorem accept_level (later : List HostMove) (s : State) : (accept later s).level = s.level := rfl
@[simp] theorem accept_maskId (later : List HostMove) (s : State) : (accept later s).maskId = s.maskId := rfl
@[simp] theorem accept_err (later : List HostMove) (s : State) : (accept later s).err = s.err := rfl
@[simp] theorem accept_fcause (later : List HostMove) (s : State) : (accept later s).fcause = s.fcause := rfl
@[simp] theorem accept_fmtRaw (later : List HostMove) (s : State) : (accept later s).fmtRaw = s.fmtRaw := rfl
@[simp] theorem accept_fmtDrawn (later : List HostMove) (s : State) : (accept later s).fmtDrawn = s.fmtDrawn := rfl
@[simp] theorem accept_mvec (later : List HostMove) (s : State) : (accept later s).mvec = s.mvec := rfl
@[simp] theorem accept_pxData (later : List HostMove) (s : State) : (accept later s).pxData = s.pxData := rfl
@[simp] theorem accept_grid (later : List HostMove) (s : State) : (accept later s).grid = s.grid := rfl
@[simp] theorem accept_rsp (later : List HostMove) (s : State) : (accept later s).rsp = s.rsp := rfl
@[simp] theorem accept_host (later : List HostMove) (s : State) : (accept later s).host = later := rfl

/-! ### offer -/

@[simp] theorem offer_stage (w : CommandWord) (s : State) : (offer w s).stage = s.stage := rfl
@[simp] theorem offer_version (w : CommandWord) (s : State) : (offer w s).version = s.version := rfl
@[simp] theorem offer_size (w : CommandWord) (s : State) : (offer w s).size = s.size := rfl
@[simp] theorem offer_level (w : CommandWord) (s : State) : (offer w s).level = s.level := rfl
@[simp] theorem offer_maskId (w : CommandWord) (s : State) : (offer w s).maskId = s.maskId := rfl
@[simp] theorem offer_err (w : CommandWord) (s : State) : (offer w s).err = s.err := rfl
@[simp] theorem offer_fcause (w : CommandWord) (s : State) : (offer w s).fcause = s.fcause := rfl
@[simp] theorem offer_fmtRaw (w : CommandWord) (s : State) : (offer w s).fmtRaw = s.fmtRaw := rfl
@[simp] theorem offer_fmtDrawn (w : CommandWord) (s : State) : (offer w s).fmtDrawn = s.fmtDrawn := rfl
@[simp] theorem offer_mvec (w : CommandWord) (s : State) : (offer w s).mvec = s.mvec := rfl
@[simp] theorem offer_pxData (w : CommandWord) (s : State) : (offer w s).pxData = s.pxData := rfl
@[simp] theorem offer_grid (w : CommandWord) (s : State) : (offer w s).grid = s.grid := rfl
@[simp] theorem offer_rsp (w : CommandWord) (s : State) : (offer w s).rsp = s.rsp := rfl
@[simp] theorem offer_host (w : CommandWord) (s : State) : (offer w s).host = .command w :: s.host := rfl

/-! ### runGeometry -/

@[simp] theorem runGeometry_stage (T : Tables) (v : BitVec 8) (s : State) : (runGeometry T v s).stage = 1 := rfl
@[simp] theorem runGeometry_version (T : Tables) (v : BitVec 8) (s : State) : (runGeometry T v s).version = v.setWidth 6 := rfl
@[simp] theorem runGeometry_size (T : Tables) (v : BitVec 8) (s : State) : (runGeometry T v s).size = BitVec.ofNat 8 (planSize v.toNat) := rfl
@[simp] theorem runGeometry_level (T : Tables) (v : BitVec 8) (s : State) : (runGeometry T v s).level = 0 := rfl
@[simp] theorem runGeometry_maskId (T : Tables) (v : BitVec 8) (s : State) : (runGeometry T v s).maskId = 0 := rfl
@[simp] theorem runGeometry_err (T : Tables) (v : BitVec 8) (s : State) : (runGeometry T v s).err = 0 := rfl
@[simp] theorem runGeometry_fcause (T : Tables) (v : BitVec 8) (s : State) : (runGeometry T v s).fcause = s.fcause := rfl
@[simp] theorem runGeometry_fmtRaw (T : Tables) (v : BitVec 8) (s : State) : (runGeometry T v s).fmtRaw = s.fmtRaw := rfl
@[simp] theorem runGeometry_fmtDrawn (T : Tables) (v : BitVec 8) (s : State) : (runGeometry T v s).fmtDrawn = s.fmtDrawn := rfl
@[simp] theorem runGeometry_mvec (T : Tables) (v : BitVec 8) (s : State) : (runGeometry T v s).mvec = s.mvec := rfl
@[simp] theorem runGeometry_pxData (T : Tables) (v : BitVec 8) (s : State) : (runGeometry T v s).pxData = s.pxData := rfl
@[simp] theorem runGeometry_grid (T : Tables) (v : BitVec 8) (s : State) : (runGeometry T v s).grid = stampedGrid T.align v.toNat := rfl
@[simp] theorem runGeometry_rsp (T : Tables) (v : BitVec 8) (s : State) : (runGeometry T v s).rsp = s.rsp := rfl
@[simp] theorem runGeometry_host (T : Tables) (v : BitVec 8) (s : State) : (runGeometry T v s).host = s.host := rfl

/-! ### recordFormat -/

@[simp] theorem recordFormat_stage (l : BitVec 2) (m : BitVec 3) (s : State) : (recordFormat l m s).stage = s.stage := rfl
@[simp] theorem recordFormat_version (l : BitVec 2) (m : BitVec 3) (s : State) : (recordFormat l m s).version = s.version := rfl
@[simp] theorem recordFormat_size (l : BitVec 2) (m : BitVec 3) (s : State) : (recordFormat l m s).size = s.size := rfl
@[simp] theorem recordFormat_level (l : BitVec 2) (m : BitVec 3) (s : State) : (recordFormat l m s).level = s.level := rfl
@[simp] theorem recordFormat_maskId (l : BitVec 2) (m : BitVec 3) (s : State) : (recordFormat l m s).maskId = s.maskId := rfl
@[simp] theorem recordFormat_err (l : BitVec 2) (m : BitVec 3) (s : State) : (recordFormat l m s).err = s.err := rfl
@[simp] theorem recordFormat_fcause (l : BitVec 2) (m : BitVec 3) (s : State) : (recordFormat l m s).fcause = s.fcause := rfl
@[simp] theorem recordFormat_fmtRaw (l : BitVec 2) (m : BitVec 3) (s : State) : (recordFormat l m s).fmtRaw = formatCodeWord l m := rfl
@[simp] theorem recordFormat_fmtDrawn (l : BitVec 2) (m : BitVec 3) (s : State) : (recordFormat l m s).fmtDrawn = formatDrawn l m := rfl
@[simp] theorem recordFormat_mvec (l : BitVec 2) (m : BitVec 3) (s : State) : (recordFormat l m s).mvec = s.mvec := rfl
@[simp] theorem recordFormat_pxData (l : BitVec 2) (m : BitVec 3) (s : State) : (recordFormat l m s).pxData = s.pxData := rfl
@[simp] theorem recordFormat_grid (l : BitVec 2) (m : BitVec 3) (s : State) : (recordFormat l m s).grid = s.grid := rfl
@[simp] theorem recordFormat_rsp (l : BitVec 2) (m : BitVec 3) (s : State) : (recordFormat l m s).rsp = s.rsp := rfl
@[simp] theorem recordFormat_host (l : BitVec 2) (m : BitVec 3) (s : State) : (recordFormat l m s).host = s.host := rfl

/-! ### formatPlan -/

@[simp] theorem formatPlan_stage (T : Tables) (l : BitVec 2) (m : BitVec 3) (s : State) : (formatPlan T l m s).stage = 2 := rfl
@[simp] theorem formatPlan_version (T : Tables) (l : BitVec 2) (m : BitVec 3) (s : State) : (formatPlan T l m s).version = s.version := rfl
@[simp] theorem formatPlan_size (T : Tables) (l : BitVec 2) (m : BitVec 3) (s : State) : (formatPlan T l m s).size = s.size := rfl
@[simp] theorem formatPlan_level (T : Tables) (l : BitVec 2) (m : BitVec 3) (s : State) : (formatPlan T l m s).level = s.level := rfl
@[simp] theorem formatPlan_maskId (T : Tables) (l : BitVec 2) (m : BitVec 3) (s : State) : (formatPlan T l m s).maskId = s.maskId := rfl
@[simp] theorem formatPlan_err (T : Tables) (l : BitVec 2) (m : BitVec 3) (s : State) : (formatPlan T l m s).err = s.err := rfl
@[simp] theorem formatPlan_fcause (T : Tables) (l : BitVec 2) (m : BitVec 3) (s : State) : (formatPlan T l m s).fcause = s.fcause := rfl
@[simp] theorem formatPlan_fmtRaw (T : Tables) (l : BitVec 2) (m : BitVec 3) (s : State) : (formatPlan T l m s).fmtRaw = formatCodeWord l m := rfl
@[simp] theorem formatPlan_fmtDrawn (T : Tables) (l : BitVec 2) (m : BitVec 3) (s : State) : (formatPlan T l m s).fmtDrawn = formatDrawn l m := rfl
@[simp] theorem formatPlan_mvec (T : Tables) (l : BitVec 2) (m : BitVec 3) (s : State) : (formatPlan T l m s).mvec = s.mvec := rfl
@[simp] theorem formatPlan_pxData (T : Tables) (l : BitVec 2) (m : BitVec 3) (s : State) : (formatPlan T l m s).pxData = s.pxData := rfl
@[simp] theorem formatPlan_grid (T : Tables) (l : BitVec 2) (m : BitVec 3) (s : State) :
    (formatPlan T l m s).grid = gridWrites (formatWrites T.cells s.size.toNat (formatCodeWord l m)) s.grid := rfl
@[simp] theorem formatPlan_rsp (T : Tables) (l : BitVec 2) (m : BitVec 3) (s : State) : (formatPlan T l m s).rsp = s.rsp := rfl
@[simp] theorem formatPlan_host (T : Tables) (l : BitVec 2) (m : BitVec 3) (s : State) : (formatPlan T l m s).host = s.host := rfl

/-! ### runLevel -/

@[simp] theorem runLevel_stage (l : BitVec 2) (s : State) : (runLevel l s).stage = 3 := rfl
@[simp] theorem runLevel_version (l : BitVec 2) (s : State) : (runLevel l s).version = s.version := rfl
@[simp] theorem runLevel_size (l : BitVec 2) (s : State) : (runLevel l s).size = s.size := rfl
@[simp] theorem runLevel_level (l : BitVec 2) (s : State) : (runLevel l s).level = l := rfl
@[simp] theorem runLevel_maskId (l : BitVec 2) (s : State) : (runLevel l s).maskId = s.maskId := rfl
@[simp] theorem runLevel_err (l : BitVec 2) (s : State) : (runLevel l s).err = s.err := rfl
@[simp] theorem runLevel_fcause (l : BitVec 2) (s : State) : (runLevel l s).fcause = s.fcause := rfl
@[simp] theorem runLevel_fmtRaw (l : BitVec 2) (s : State) : (runLevel l s).fmtRaw = s.fmtRaw := rfl
@[simp] theorem runLevel_fmtDrawn (l : BitVec 2) (s : State) : (runLevel l s).fmtDrawn = s.fmtDrawn := rfl
@[simp] theorem runLevel_mvec (l : BitVec 2) (s : State) : (runLevel l s).mvec = s.mvec := rfl
@[simp] theorem runLevel_pxData (l : BitVec 2) (s : State) : (runLevel l s).pxData = s.pxData := rfl
@[simp] theorem runLevel_grid (l : BitVec 2) (s : State) : (runLevel l s).grid = s.grid := rfl
@[simp] theorem runLevel_rsp (l : BitVec 2) (s : State) : (runLevel l s).rsp = s.rsp := rfl
@[simp] theorem runLevel_host (l : BitVec 2) (s : State) : (runLevel l s).host = s.host := rfl

/-! ### runMask -/

@[simp] theorem runMask_stage (m : BitVec 3) (s : State) : (runMask m s).stage = 4 := rfl
@[simp] theorem runMask_version (m : BitVec 3) (s : State) : (runMask m s).version = s.version := rfl
@[simp] theorem runMask_size (m : BitVec 3) (s : State) : (runMask m s).size = s.size := rfl
@[simp] theorem runMask_level (m : BitVec 3) (s : State) : (runMask m s).level = s.level := rfl
@[simp] theorem runMask_maskId (m : BitVec 3) (s : State) : (runMask m s).maskId = m := rfl
@[simp] theorem runMask_err (m : BitVec 3) (s : State) : (runMask m s).err = s.err := rfl
@[simp] theorem runMask_fcause (m : BitVec 3) (s : State) : (runMask m s).fcause = s.fcause := rfl
@[simp] theorem runMask_fmtRaw (m : BitVec 3) (s : State) : (runMask m s).fmtRaw = s.fmtRaw := rfl
@[simp] theorem runMask_fmtDrawn (m : BitVec 3) (s : State) : (runMask m s).fmtDrawn = s.fmtDrawn := rfl
@[simp] theorem runMask_mvec (m : BitVec 3) (s : State) : (runMask m s).mvec = s.mvec := rfl
@[simp] theorem runMask_pxData (m : BitVec 3) (s : State) : (runMask m s).pxData = s.pxData := rfl
@[simp] theorem runMask_grid (m : BitVec 3) (s : State) : (runMask m s).grid = maskGrid m s.size.toNat s.grid := rfl
@[simp] theorem runMask_rsp (m : BitVec 3) (s : State) : (runMask m s).rsp = s.rsp := rfl
@[simp] theorem runMask_host (m : BitVec 3) (s : State) : (runMask m s).host = s.host := rfl

/-! ### memWrite -/

@[simp] theorem memWrite_stage (s : State) (r c : Nat) (p : Pixel) : (memWrite s r c p).stage = s.stage := rfl
@[simp] theorem memWrite_version (s : State) (r c : Nat) (p : Pixel) : (memWrite s r c p).version = s.version := rfl
@[simp] theorem memWrite_size (s : State) (r c : Nat) (p : Pixel) : (memWrite s r c p).size = s.size := rfl
@[simp] theorem memWrite_level (s : State) (r c : Nat) (p : Pixel) : (memWrite s r c p).level = s.level := rfl
@[simp] theorem memWrite_maskId (s : State) (r c : Nat) (p : Pixel) : (memWrite s r c p).maskId = s.maskId := rfl
@[simp] theorem memWrite_err (s : State) (r c : Nat) (p : Pixel) : (memWrite s r c p).err = s.err := rfl
@[simp] theorem memWrite_fcause (s : State) (r c : Nat) (p : Pixel) : (memWrite s r c p).fcause = s.fcause := rfl
@[simp] theorem memWrite_fmtRaw (s : State) (r c : Nat) (p : Pixel) : (memWrite s r c p).fmtRaw = s.fmtRaw := rfl
@[simp] theorem memWrite_fmtDrawn (s : State) (r c : Nat) (p : Pixel) : (memWrite s r c p).fmtDrawn = s.fmtDrawn := rfl
@[simp] theorem memWrite_mvec (s : State) (r c : Nat) (p : Pixel) : (memWrite s r c p).mvec = s.mvec := rfl
@[simp] theorem memWrite_pxData (s : State) (r c : Nat) (p : Pixel) : (memWrite s r c p).pxData = s.pxData := rfl
@[simp] theorem memWrite_grid (s : State) (r c : Nat) (p : Pixel) : (memWrite s r c p).grid = gridWrite s.grid (cellKey r c) p := rfl
@[simp] theorem memWrite_rsp (s : State) (r c : Nat) (p : Pixel) : (memWrite s r c p).rsp = s.rsp := rfl
@[simp] theorem memWrite_host (s : State) (r c : Nat) (p : Pixel) : (memWrite s r c p).host = s.host := rfl

/-! ### resetMachine -/

@[simp] theorem resetMachine_stage (later : List HostMove) : (resetMachine later).stage = 0 := rfl
@[simp] theorem resetMachine_version (later : List HostMove) : (resetMachine later).version = 0 := rfl
@[simp] theorem resetMachine_size (later : List HostMove) : (resetMachine later).size = 0 := rfl
@[simp] theorem resetMachine_level (later : List HostMove) : (resetMachine later).level = 0 := rfl
@[simp] theorem resetMachine_maskId (later : List HostMove) : (resetMachine later).maskId = 0 := rfl
@[simp] theorem resetMachine_err (later : List HostMove) : (resetMachine later).err = 0 := rfl
@[simp] theorem resetMachine_fcause (later : List HostMove) : (resetMachine later).fcause = 0 := rfl
@[simp] theorem resetMachine_fmtRaw (later : List HostMove) : (resetMachine later).fmtRaw = 0 := rfl
@[simp] theorem resetMachine_fmtDrawn (later : List HostMove) : (resetMachine later).fmtDrawn = 0 := rfl
@[simp] theorem resetMachine_mvec (later : List HostMove) : (resetMachine later).mvec = 0 := rfl
@[simp] theorem resetMachine_pxData (later : List HostMove) : (resetMachine later).pxData = 0 := rfl
@[simp] theorem resetMachine_grid (later : List HostMove) : (resetMachine later).grid = [] := rfl
@[simp] theorem resetMachine_rsp (later : List HostMove) : (resetMachine later).rsp = none := rfl
@[simp] theorem resetMachine_host (later : List HostMove) : (resetMachine later).host = later := rfl

end Sys2Proof.Machine
end

