-- ==== Sys2Proof/Laws/Ops.lean ====
section
/-!
SUPPORT. One lemma for each shared check that says everything it can answer, and the forms a proof rewrites with.
-/

namespace Sys2Proof.Machine

variable {s t : State} {go : Result}

/-! ### The checks on a state that passes them -/

theorem unlessFaulted_live (h : s.fcause = 0) : unlessFaulted s go = go := if_pos h

theorem unlessFaulted_faulted (h : s.fcause ≠ 0) : unlessFaulted s go = .next (refuseWhileFaulted s) := if_neg h

theorem requireLegal_pass {legal : Bool} (h : legal = true) : requireLegal legal s go = go := if_pos h

theorem requireStage_pass {n : BitVec 3} (h : s.stage = n) : requireStage n s go = go := if_pos h

theorem requireStage_fail {n : BitVec 3} (h : s.stage ≠ n) : requireStage n s go = .next (raiseFault .sequence s) := if_neg h

theorem requirePlan_pass (h : s.stage ≠ 0) : requirePlan s go = go := if_neg h

theorem requirePlan_fail (h : s.stage = 0) : requirePlan s go = .next (raiseFault .sequence s) := if_pos h

theorem requireCell_pass {r c : Nat} (hr : r < s.size.toNat) (hc : c < s.size.toNat) : requireCell r c s go = go :=
  if_pos (inSquare_iff.mpr ⟨hr, hc⟩)

theorem requireCell_fail {r c : Nat} (h : ¬(r < s.size.toNat ∧ c < s.size.toNat)) :
    requireCell r c s go = .next (raiseFault .bounds s) :=
  if_neg (fun e => h (inSquare_iff.mp e))

theorem versionValid_iff {v : BitVec 8} : versionValid v = true ↔ 1 ≤ v.toNat ∧ v.toNat ≤ 40 := by
  unfold versionValid
  rw [Bool.and_eq_true, decide_eq_true_eq, decide_eq_true_eq]
  exact Iff.rfl

theorem requireVersion_pass {v : BitVec 8} (h : 1 ≤ v.toNat ∧ v.toNat ≤ 40) : requireVersion v s go = go :=
  if_pos (versionValid_iff.mpr h)

theorem requireVersion_fail {v : BitVec 8} (h : ¬(1 ≤ v.toNat ∧ v.toNat ≤ 40)) :
    requireVersion v s go = .next (raiseInvalidVersion s) :=
  if_neg (fun e => h (versionValid_iff.mp e))

@[simp] theorem andThen_next (k : State → Result) : andThen (.next t) k = k t := rfl

/-! ### What a check answers when the answer is a next state -/

theorem unlessFaulted_next (h : unlessFaulted s go = .next t) :
    s.fcause ≠ 0 ∧ t = refuseWhileFaulted s ∨ s.fcause = 0 ∧ go = .next t := by
  unfold unlessFaulted at h
  split at h
  · exact .inr ⟨‹_›, h⟩
  · exact .inl ⟨‹_›, (Host.Outcome.next.inj h).symm⟩

theorem requireLegal_next {legal : Bool} (h : requireLegal legal s go = .next t) :
    legal = false ∧ t = raiseFault .illegalCommand s ∨ legal = true ∧ go = .next t := by
  cases legal
  · exact .inl ⟨rfl, (Host.Outcome.next.inj h).symm⟩
  · exact .inr ⟨rfl, h⟩

theorem requireStage_next {n : BitVec 3} (h : requireStage n s go = .next t) :
    s.stage ≠ n ∧ t = raiseFault .sequence s ∨ s.stage = n ∧ go = .next t := by
  unfold requireStage at h
  split at h
  · exact .inr ⟨‹_›, h⟩
  · exact .inl ⟨‹_›, (Host.Outcome.next.inj h).symm⟩

theorem requirePlan_next (h : requirePlan s go = .next t) :
    s.stage = 0 ∧ t = raiseFault .sequence s ∨ s.stage ≠ 0 ∧ go = .next t := by
  unfold requirePlan at h
  split at h
  · exact .inl ⟨‹_›, (Host.Outcome.next.inj h).symm⟩
  · exact .inr ⟨‹_›, h⟩

theorem requireCell_next {r c : Nat} (h : requireCell r c s go = .next t) :
    ¬(r < s.size.toNat ∧ c < s.size.toNat) ∧ t = raiseFault .bounds s ∨
      (r < s.size.toNat ∧ c < s.size.toNat) ∧ go = .next t := by
  by_cases hin : r < s.size.toNat ∧ c < s.size.toNat
  · exact .inr ⟨hin, by rwa [requireCell_pass hin.1 hin.2] at h⟩
  · rw [requireCell_fail hin] at h
    exact .inl ⟨hin, (Host.Outcome.next.inj h).symm⟩

theorem requireVersion_next {v : BitVec 8} (h : requireVersion v s go = .next t) :
    ¬(1 ≤ v.toNat ∧ v.toNat ≤ 40) ∧ t = raiseInvalidVersion s ∨ (1 ≤ v.toNat ∧ v.toNat ≤ 40) ∧ go = .next t := by
  by_cases hv : 1 ≤ v.toNat ∧ v.toNat ≤ 40
  · exact .inr ⟨hv, by rwa [requireVersion_pass hv] at h⟩
  · rw [requireVersion_fail hv] at h
    exact .inl ⟨hv, (Host.Outcome.next.inj h).symm⟩

theorem andThen_eq_next {first : Result} {k : State → Result} (h : andThen first k = .next t) :
    ∃ u, first = .next u ∧ k u = .next t := by
  cases first with
  | next u => exact ⟨u, rfl, h⟩
  | fault r => cases h
  | refused r => cases h

theorem rejectCommand_next (h : rejectCommand s = .next t) :
    s.fcause ≠ 0 ∧ t = refuseWhileFaulted s ∨ s.fcause = 0 ∧ t = raiseFault .illegalCommand s := by
  rcases unlessFaulted_next h with h | ⟨h1, h2⟩
  · exact .inl h
  · exact .inr ⟨h1, (Host.Outcome.next.inj h2).symm⟩

theorem rejectCommand_eq (s : State) :
    rejectCommand s = .next (if s.fcause = 0 then raiseFault .illegalCommand s else refuseWhileFaulted s) := by
  unfold rejectCommand unlessFaulted
  split <;> rfl

end Sys2Proof.Machine
end

