-- ==== Sys2Proof/Laws/Commands.lean ====
section
/-!
SUPPORT. For each command, the next state it answers when its checks pass, and everything it can answer; for a step, the same.
-/

namespace Sys2Proof.Machine

variable {s t : State} {T : Tables}

/-! ### The commands on a state and operands that pass their checks -/

theorem runFormat_next {l : BitVec 2} {m : BitVec 3} (h : formatCellsFit T.cells s.size.toNat = true) :
    runFormat T l m s = .next (formatPlan T l m s) :=
  if_pos h

theorem runGeometry_size_toNat {v : BitVec 8} (h : v.toNat ≤ 40) :
    (runGeometry T v s).size.toNat = planSize v.toNat := by
  rw [runGeometry_size, BitVec.toNat_ofNat]
  exact Nat.mod_eq_of_lt (by unfold planSize; omega)

theorem execGeomWith_valid {v : BitVec 8} (h : s.fcause = 0) (hv : 1 ≤ v.toNat ∧ v.toNat ≤ 40) :
    execGeomWith T v s = .next (respond .ok (BitVec.ofNat 16 (planSize v.toNat)) (runGeometry T v s)) := by
  rw [execGeomWith, unlessFaulted_live h, requireVersion_pass hv]

/-- The format stage keeps the canonical form. -/
theorem formatPlan_wf {l : BitVec 2} {m : BitVec 3} (h : gridWf s.grid) : gridWf (formatPlan T l m s).grid := by
  rw [formatPlan_grid]
  exact gridWrites_wf h formatWrites_ne_cleared

/-! ### Everything a command can answer -/

/-- The ways a command fails, each a next state (60_exceptions.md R230, R237). -/
def Fails (s t : State) : Prop :=
  s.fcause ≠ 0 ∧ t = refuseWhileFaulted s ∨ s.fcause = 0 ∧ ∃ cause, t = raiseFault cause s

/-- A command that fails changes nothing but FCAUSE, and that only when it was 0, and answers (FAULT, FCAUSE). -/
theorem Fails_frame (h : Fails s t) :
    t = { s with fcause := t.fcause, rsp := t.rsp } ∧ t.fcause ≠ 0 ∧ (s.fcause = 0 ∨ t.fcause = s.fcause) ∧
      t.rsp = some (responseWord .fault (t.fcause.setWidth 16)) := by
  rcases h with ⟨h, rfl⟩ | ⟨h, c, rfl⟩
  · exact ⟨rfl, h, .inr rfl, rfl⟩
  · exact ⟨rfl, by cases c <;> simp [causeCode], .inl h, rfl⟩

theorem execGeomWith_next {v : BitVec 8} (h : execGeomWith T v s = .next t) :
    Fails s t ∨ s.fcause = 0 ∧
      (¬(1 ≤ v.toNat ∧ v.toNat ≤ 40) ∧ t = raiseInvalidVersion s ∨
        (1 ≤ v.toNat ∧ v.toNat ≤ 40) ∧ t = respond .ok (BitVec.ofNat 16 (planSize v.toNat)) (runGeometry T v s)) := by
  rcases unlessFaulted_next h with h | ⟨h0, h⟩
  · exact .inl (.inl h)
  · rcases requireVersion_next h with h | ⟨hv, h⟩
    · exact .inr ⟨h0, .inl h⟩
    · exact .inr ⟨h0, .inr ⟨hv, (Host.Outcome.next.inj h).symm⟩⟩

theorem runFormat_eq_next {l : BitVec 2} {m : BitVec 3} (h : runFormat T l m s = .next t) :
    formatCellsFit T.cells s.size.toNat = true ∧
      t = formatPlan T l m s := by
  unfold runFormat at h
  split at h
  · exact ⟨‹_›, (Host.Outcome.next.inj h).symm⟩
  · cases h

theorem execFmtWith_next {l : BitVec 2} {m : BitVec 3} (h : execFmtWith T l m s = .next t) :
    Fails s t ∨ s.fcause = 0 ∧ s.stage = 1 ∧ formatCellsFit T.cells s.size.toNat = true ∧
      t = respond .ok ((formatDrawn l m).setWidth 16) (formatPlan T l m s) := by
  rcases unlessFaulted_next h with h | ⟨h0, h⟩
  · exact .inl (.inl h)
  · rcases requireStage_next h with ⟨-, h⟩ | ⟨h1, h⟩
    · exact .inl (.inr ⟨h0, _, h⟩)
    · obtain ⟨u, hu, h⟩ := andThen_eq_next h
      obtain ⟨hf, rfl⟩ := runFormat_eq_next hu
      exact .inr ⟨h0, h1, hf, (Host.Outcome.next.inj h).symm⟩

theorem execLvl_next {l : BitVec 2} (h : execLvl l s = .next t) :
    Fails s t ∨ s.fcause = 0 ∧ s.stage = 2 ∧ t = respond .ok 0 (runLevel l s) := by
  rcases unlessFaulted_next h with h | ⟨h0, h⟩
  · exact .inl (.inl h)
  · rcases requireStage_next h with ⟨-, h⟩ | ⟨h1, h⟩
    · exact .inl (.inr ⟨h0, _, h⟩)
    · exact .inr ⟨h0, h1, (Host.Outcome.next.inj h).symm⟩

theorem execMask_next {m : BitVec 3} (h : execMask m s = .next t) :
    Fails s t ∨ s.fcause = 0 ∧ s.stage = 3 ∧ t = respond .ok 0 (runMask m s) := by
  rcases unlessFaulted_next h with h | ⟨h0, h⟩
  · exact .inl (.inl h)
  · rcases requireStage_next h with ⟨-, h⟩ | ⟨h1, h⟩
    · exact .inl (.inr ⟨h0, _, h⟩)
    · exact .inr ⟨h0, h1, (Host.Outcome.next.inj h).symm⟩

theorem execBchenc_next {l : BitVec 2} {m : BitVec 3} (h : execBchenc l m s = .next t) :
    Fails s t ∨ s.fcause = 0 ∧ t = respond .ok ((formatDrawn l m).setWidth 16) (recordFormat l m s) := by
  rcases unlessFaulted_next h with h | ⟨h0, h⟩
  · exact .inl (.inl h)
  · exact .inr ⟨h0, (Host.Outcome.next.inj h).symm⟩

theorem execMeval_next {i j : BitVec 8} (h : execMeval i j s = .next t) :
    Fails s t ∨ s.fcause = 0 ∧
      t = respond .ok ((maskVector i.toNat j.toNat).setWidth 16) { s with mvec := maskVector i.toNat j.toNat } := by
  rcases unlessFaulted_next h with h | ⟨h0, h⟩
  · exact .inl (.inl h)
  · exact .inr ⟨h0, (Host.Outcome.next.inj h).symm⟩

theorem execPxrd_next {r c : BitVec 8} (h : execPxrd r c s = .next t) :
    Fails s t ∨ s.fcause = 0 ∧ s.stage ≠ 0 ∧ (r.toNat < s.size.toNat ∧ c.toNat < s.size.toNat) ∧
      t = respond .ok ((memRead s r.toNat c.toNat).setWidth 16) { s with pxData := memRead s r.toNat c.toNat } := by
  rcases unlessFaulted_next h with h | ⟨h0, h⟩
  · exact .inl (.inl h)
  · rcases requirePlan_next h with ⟨-, h⟩ | ⟨h1, h⟩
    · exact .inl (.inr ⟨h0, _, h⟩)
    · rcases requireCell_next h with ⟨-, h⟩ | ⟨h2, h⟩
      · exact .inl (.inr ⟨h0, _, h⟩)
      · exact .inr ⟨h0, h1, h2, (Host.Outcome.next.inj h).symm⟩

theorem execPxwr_next {r c : BitVec 8} {p : Pixel} (h : execPxwr r c p s = .next t) :
    Fails s t ∨ s.fcause = 0 ∧ pixLegal p = true ∧ s.stage ≠ 0 ∧ (r.toNat < s.size.toNat ∧ c.toNat < s.size.toNat) ∧
      t = respond .ok 0 (memWrite s r.toNat c.toNat p) := by
  rcases unlessFaulted_next h with h | ⟨h0, h⟩
  · exact .inl (.inl h)
  · rcases requireLegal_next h with ⟨-, h⟩ | ⟨hp, h⟩
    · exact .inl (.inr ⟨h0, _, h⟩)
    · rcases requirePlan_next h with ⟨-, h⟩ | ⟨h1, h⟩
      · exact .inl (.inr ⟨h0, _, h⟩)
      · rcases requireCell_next h with ⟨-, h⟩ | ⟨h2, h⟩
        · exact .inl (.inr ⟨h0, _, h⟩)
        · exact .inr ⟨h0, hp, h1, h2, (Host.Outcome.next.inj h).symm⟩

theorem execRdreg_next {n : BitVec 4} (h : execRdreg n s = .next t) :
    (readReg n s = none ∧ Fails s t) ∨ ∃ x, readReg n s = some x ∧ t = respond .ok x s := by
  unfold execRdreg at h
  split at h
  · exact .inr ⟨_, ‹_›, (Host.Outcome.next.inj h).symm⟩
  · rcases rejectCommand_next h with h | ⟨h0, h⟩
    · exact .inl ⟨‹_›, .inl h⟩
    · exact .inl ⟨‹_›, .inr ⟨h0, _, h⟩⟩

theorem execBuildWith_next {v : BitVec 8} {l : BitVec 2} {m : BitVec 3} (h : execBuildWith T v l m s = .next t) :
    Fails s t ∨ s.fcause = 0 ∧
      (¬(1 ≤ v.toNat ∧ v.toNat ≤ 40) ∧ t = raiseInvalidVersion s ∨
        (1 ≤ v.toNat ∧ v.toNat ≤ 40) ∧ ∃ u, runFormat T l m (runGeometry T v s) = .next u ∧
          t = respond .ok (u.size.setWidth 16) { runMask m (runLevel l u) with err := 0 }) := by
  rcases unlessFaulted_next h with h | ⟨h0, h⟩
  · exact .inl (.inl h)
  · rcases requireVersion_next h with h | ⟨hv, h⟩
    · exact .inr ⟨h0, .inl h⟩
    · obtain ⟨u, hu, h⟩ := andThen_eq_next h
      exact .inr ⟨h0, .inr ⟨hv, u, hu, (Host.Outcome.next.inj h).symm⟩⟩

/-- BUILD of a valid version, stage by stage, where the format cells lie in the grid (43_plan_sequencer_and_access.md R203). -/
theorem execBuildWith_valid {v : BitVec 8} {l : BitVec 2} {m : BitVec 3} (h : s.fcause = 0) (hv : 1 ≤ v.toNat ∧ v.toNat ≤ 40)
    (hf : formatCellsFit T.cells (planSize v.toNat) = true) :
    execBuildWith T v l m s = .next (respond .ok ((formatPlan T l m (runGeometry T v s)).size.setWidth 16)
      { runMask m (runLevel l (formatPlan T l m (runGeometry T v s))) with err := 0 }) := by
  rw [execBuildWith, unlessFaulted_live h, requireVersion_pass hv, runFormat_next, andThen_next]
  rwa [runGeometry_size_toNat hv.2]

/-- Every format cell of the default table lies in the grid of every version (41_format_bch.md R158). -/
theorem formatCellsFit_planSize {v : Nat} : formatCellsFit Config.tables.cells (planSize v) = true :=
  formatCellsFit_default (by unfold planSize; omega)

/-! ### The block with the default tables is the case Config.tables of the block with any tables (00_scope.md R9) -/

theorem exec_eq_execWith (i : Instr) (s : State) : exec i s = execWith Config.tables i s := by
  cases i <;> rfl

theorem step_eq_stepWith (s : State) : step s = stepWith Config.tables s := by
  have : exec = execWith Config.tables := funext fun i => funext (exec_eq_execWith i)
  rw [step, stepWith, this]

/-! ### The step -/

/-- Everything a step can do, however commands are executed: idle, reset, execute a command, or reject a word. -/
theorem stepBy_next {execute : Instr → State → Result} (h : stepBy execute s = .next t) :
    (s.host = [] ∧ t = idle s) ∨
    (∃ later w, (s.host = .reset :: later ∨ s.host = .resetInFlight w :: later) ∧ t = resetMachine later) ∨
    (∃ w later i, s.host = .command w :: later ∧ decode w = .ok i ∧ execute i (accept later s) = .next t) ∨
    (∃ w later e, s.host = .command w :: later ∧ decode w = .error e ∧ rejectCommand (accept later s) = .next t) := by
  unfold stepBy at h
  split at h
  · exact .inl ⟨‹_›, (Host.Outcome.next.inj h).symm⟩
  · rename_i w later hh
    unfold runCommandBy at h
    split at h
    · exact .inr (.inr (.inl ⟨w, later, _, hh, ‹_›, h⟩))
    · exact .inr (.inr (.inr ⟨w, later, _, hh, ‹_›, h⟩))
  · exact .inr (.inl ⟨_, 0, .inl ‹_›, (Host.Outcome.next.inj h).symm⟩)
  · exact .inr (.inl ⟨_, _, .inr ‹_›, (Host.Outcome.next.inj h).symm⟩)

end Sys2Proof.Machine
end

