-- ==== Sys2Proof/Laws/PerInstr.lean ====
section
/-!
SUPPORT. The family RowMatch: the encoding of each command is selected by its own row of the opcode map (30_encoding.md R96), one lemma for
each constructor.
-/

namespace Sys2Proof.Laws

/-- The match and the mask of a command's row, as opcode_table.json and 30_encoding.md R96 list them. -/
def opcodeRow : Instr → CommandWord × CommandWord
  | .build _ _ _ => (0x10000000, 0xFFFFE000)
  | .geom _ => (0x20000000, 0xFFFFFF00)
  | .fmt _ _ => (0x30000000, 0xFFFFE0FF)
  | .lvl _ => (0x40000000, 0xFFFFFCFF)
  | .mask _ => (0x50000000, 0xFFFFE3FF)
  | .bchenc _ _ => (0x60000000, 0xFFFFE0FF)
  | .meval _ _ => (0x70000000, 0xFFFF0000)
  | .pxrd _ _ => (0x80000000, 0xFFFF0000)
  | .pxwr _ _ _ => (0x90000000, 0xFE000000)
  | .rdreg _ => (0xA0000000, 0xFFFFFFF0)

/-- The bits of the encoding under its row's mask are the row's match. -/
def RowMatch.Statement (i : Instr) : Prop := encode i &&& (opcodeRow i).2 = (opcodeRow i).1

theorem RowMatch.build (v : BitVec 8) (l : BitVec 2) (m : BitVec 3) : RowMatch.Statement (.build v l m) := by
  apply BitVec.eq_of_getLsbD_eq
  intro k hk
  simp only [opcodeRow, encode, BitVec.getLsbD_and, BitVec.getLsbD_append]
  interval_cases k <;> simp

theorem RowMatch.geom (v : BitVec 8) : RowMatch.Statement (.geom v) := by
  apply BitVec.eq_of_getLsbD_eq
  intro k hk
  simp only [opcodeRow, encode, BitVec.getLsbD_and, BitVec.getLsbD_append]
  interval_cases k <;> simp

theorem RowMatch.fmt (l : BitVec 2) (m : BitVec 3) : RowMatch.Statement (.fmt l m) := by
  apply BitVec.eq_of_getLsbD_eq
  intro k hk
  simp only [opcodeRow, encode, BitVec.getLsbD_and, BitVec.getLsbD_append]
  interval_cases k <;> simp

theorem RowMatch.lvl (l : BitVec 2) : RowMatch.Statement (.lvl l) := by
  apply BitVec.eq_of_getLsbD_eq
  intro k hk
  simp only [opcodeRow, encode, BitVec.getLsbD_and, BitVec.getLsbD_append]
  interval_cases k <;> simp

theorem RowMatch.mask (m : BitVec 3) : RowMatch.Statement (.mask m) := by
  apply BitVec.eq_of_getLsbD_eq
  intro k hk
  simp only [opcodeRow, encode, BitVec.getLsbD_and, BitVec.getLsbD_append]
  interval_cases k <;> simp

theorem RowMatch.bchenc (l : BitVec 2) (m : BitVec 3) : RowMatch.Statement (.bchenc l m) := by
  apply BitVec.eq_of_getLsbD_eq
  intro k hk
  simp only [opcodeRow, encode, BitVec.getLsbD_and, BitVec.getLsbD_append]
  interval_cases k <;> simp

theorem RowMatch.meval (i j : BitVec 8) : RowMatch.Statement (.meval i j) := by
  apply BitVec.eq_of_getLsbD_eq
  intro k hk
  simp only [opcodeRow, encode, BitVec.getLsbD_and, BitVec.getLsbD_append]
  interval_cases k <;> simp

theorem RowMatch.pxrd (r c : BitVec 8) : RowMatch.Statement (.pxrd r c) := by
  apply BitVec.eq_of_getLsbD_eq
  intro k hk
  simp only [opcodeRow, encode, BitVec.getLsbD_and, BitVec.getLsbD_append]
  interval_cases k <;> simp

theorem RowMatch.pxwr (r c : BitVec 8) (p : Pixel) : RowMatch.Statement (.pxwr r c p) := by
  apply BitVec.eq_of_getLsbD_eq
  intro k hk
  simp only [opcodeRow, encode, BitVec.getLsbD_and, BitVec.getLsbD_append]
  interval_cases k <;> simp

theorem RowMatch.rdreg (n : BitVec 4) : RowMatch.Statement (.rdreg n) := by
  apply BitVec.eq_of_getLsbD_eq
  intro k hk
  simp only [opcodeRow, encode, BitVec.getLsbD_and, BitVec.getLsbD_append]
  interval_cases k <;> simp

end Sys2Proof.Laws
end

