-- ==== Sys2Proof/Tests/Slice0.lean ====
section
/-!
SUPPORT. Tests: words written out from the formats of 30_encoding.md, the worked examples of 95_test_vectors.md, the ill-formed
terms, and for each obligation with hypotheses a witness that meets them. Every expected value is from spec/.
-/

namespace Sys2Proof.Tests

open Sys2Proof Sys2Proof.Machine

/-! ### Helpers -/

/-- The next state of a result, if it is one. -/
def next (r : Result) : Option State :=
  match r with
  | .next t => some t
  | _ => none

/-- A plan of version 1 at a stage, with a data cell (9, 9) and a check cell (12, 12), light. -/
def plan (stage : BitVec 3) : State :=
  { State.reset with stage := stage, version := 1, size := 21, grid := [(cellKey 9 9, 0x014), (cellKey 12 12, 0x018)] }

/-- The same plan on a block faulted by a cause. -/
def faulted (cause : BitVec 2) : State := { plan 1 with fcause := cause }

/-- The block with one move to come. -/
def given (h : HostMove) (s : State) : State := { s with host := [h] }

/-- The next state of the command word alone, from the reset state. -/
def afterWord (w : Nat) (s : State) : Option State := next (step (s.withFetchWord 32 w))

/-! ### Ill-formed terms -/

theorem test_pxwr_role_7_is_ill_formed : wellFormed (.pxwr 0 0 0x01C) = false ∧ wellFormed (.pxwr 0 0 0x01B) = true := by decide

theorem test_rdreg_14_and_15_are_ill_formed :
    wellFormed (.rdreg 14) = false ∧ wellFormed (.rdreg 15) = false ∧ wellFormed (.rdreg 13) = true := by decide

/-! ### One word of each command, bit by bit: the opcode, then the fields of its format from bit 27 down (30_encoding.md R92 to R94, R96) -/

/-- op 0001, fifteen zeros, mask 101, level 10, version 00100111. -/
theorem test_decode_build : decode 0b0001_000000000000000_101_10_00100111 = .ok (.build 39 2 5) ∧
    encode (.build 39 2 5) = 0b0001_000000000000000_101_10_00100111 := by decide

/-- op 0010, twenty zeros, version 00101001. -/
theorem test_decode_geom : decode 0b0010_00000000000000000000_00101001 = .ok (.geom 41) ∧
    encode (.geom 41) = 0b0010_00000000000000000000_00101001 := by decide

/-- op 0011, fifteen zeros, mask 110, level 01, eight zeros. -/
theorem test_decode_fmt : decode 0b0011_000000000000000_110_01_00000000 = .ok (.fmt 1 6) ∧
    encode (.fmt 1 6) = 0b0011_000000000000000_110_01_00000000 := by decide

/-- op 0100, eighteen zeros, level 11, eight zeros. -/
theorem test_decode_lvl : decode 0b0100_000000000000000000_11_00000000 = .ok (.lvl 3) ∧
    encode (.lvl 3) = 0b0100_000000000000000000_11_00000000 := by decide

/-- op 0101, fifteen zeros, mask 100, ten zeros. -/
theorem test_decode_mask : decode 0b0101_000000000000000_100_0000000000 = .ok (.mask 4) ∧
    encode (.mask 4) = 0b0101_000000000000000_100_0000000000 := by decide

/-- op 0110, fifteen zeros, mask 011, level 10, eight zeros. -/
theorem test_decode_bchenc : decode 0b0110_000000000000000_011_10_00000000 = .ok (.bchenc 2 3) ∧
    encode (.bchenc 2 3) = 0b0110_000000000000000_011_10_00000000 := by decide

/-- op 0111, twelve zeros, row 00000101, column 00000111. -/
theorem test_decode_meval : decode 0b0111_000000000000_00000101_00000111 = .ok (.meval 5 7) ∧
    encode (.meval 5 7) = 0b0111_000000000000_00000101_00000111 := by decide

/-- op 1000, twelve zeros, row 10110000, column 00001000. -/
theorem test_decode_pxrd : decode 0b1000_000000000000_10110000_00001000 = .ok (.pxrd 176 8) ∧
    encode (.pxrd 176 8) = 0b1000_000000000000_10110000_00001000 := by decide

/-- op 1001, three zeros, pixel 1111_101_1_0, row 00001001, column 00001010. -/
theorem test_decode_pxwr : decode 0b1001_000_111110110_00001001_00001010 = .ok (.pxwr 9 10 0x1F6) ∧
    encode (.pxwr 9 10 0x1F6) = 0b1001_000_111110110_00001001_00001010 := by decide

/-- op 1010, twenty-four zeros, register 1101. -/
theorem test_decode_rdreg : decode 0b1010_000000000000000000000000_1101 = .ok (.rdreg 13) ∧
    encode (.rdreg 13) = 0b1010_000000000000000000000000_1101 := by decide

/-- 30_encoding.md R99 (a): opcodes 0 and 0xB to 0xF. -/
theorem test_reserved_opcodes : decode 0x00000000 = .error (.reservedOpcode 0) ∧ decode 0xB0000000 = .error (.reservedOpcode 0xB) ∧
    decode 0xFFFFFFFF = .error (.reservedOpcode 0xF) := by decide

/-- 30_encoding.md R99 (b): a must-be-zero bit is 1, the lowest and the highest of some formats. -/
theorem test_must_be_zero : decode 0x10002001 = .error (.mustBeZero 1) ∧ decode 0x20000101 = .error (.mustBeZero 2) ∧
    decode 0x30000001 = .error (.mustBeZero 3) ∧ decode 0x50000100 = .error (.mustBeZero 5) ∧
    decode 0x80010000 = .error (.mustBeZero 8) ∧ decode 0x92000000 = .error (.mustBeZero 9) ∧
    decode 0xA0000010 = .error (.mustBeZero 0xA) := by decide

/-- 30_encoding.md R99 (c), (d): role code 7, and register indices 14 and 15. -/
theorem test_reserved_operands : decode 0x901C0000 = .error (.reservedRole 0x01C) ∧
    decode 0xA000000E = .error (.reservedRegister 14) ∧ decode 0xA000000F = .error (.reservedRegister 15) := by decide

/-- 30_encoding.md R103: assembler text. -/
theorem test_assembler_text : assemblerText (.build 1 1 0) = "BUILD 1, M, 0" ∧
    assemblerText (.pxwr 8 8 0x015) = "PXWR 8, 8, 0x015" ∧ assemblerText (.rdreg 11) = "RDREG FMTDRAWN" := by decide

/-- opcode_table.json numbers bit 0 as the least significant; a row of 32 bits is a whole word. -/
theorem test_table_word : decodeTableWord 32 0x60001F00 = some (.bchenc 3 7) ∧ decodeTableWord 32 0 = none ∧
    decodeTableWord 64 0x60001F00 = none := by decide

/-! ### One step, at most two theorems for each command (95_test_vectors.md) -/

/-- Section 3, V-P1: BUILD 1, M, 0 answers 21 and leaves a complete plan; (1, 8) and (8, 19) carry format bit 1. -/
theorem test_build : (afterWord 0x10000101 State.reset).map (fun t => (t.rsp, t.stage, t.fmtDrawn)) = some (some 0x15, 4, 0x5412) ∧
    (afterWord 0x10000101 State.reset).map (fun t => (memRead t 1 8, memRead t 8 19, memRead t 13 8)) =
      some (0x033, 0x033, 0x000) := by decide +kernel

/-- Section 2.6: BUILD 41, H, 7 empties a plan and keeps FMTDRAWN. -/
theorem test_build_invalid : (afterWord 0x10001F29 { plan 4 with fmtDrawn := 0x789D }).map
    (fun t => (t.rsp, t.stage, t.err, t.fmtDrawn)) = some (some 0x10000000, 0, 1, 0x789D) ∧
    (afterWord 0x10001F29 (plan 4)).map (fun t => t.grid) = some [] := by decide +kernel

/-- Section 3, V-P2: GEOM 2 answers 25; the centre of the alignment box (16, 16) is black, the corner zones stand. -/
theorem test_geom : (afterWord 0x20000002 State.reset).map
    (fun t => (t.rsp, t.stage, memRead t 18 18, memRead t 17 17, memRead t 0 0)) =
      some (some 0x19, 1, 0x009, 0x008, 0x005) := by decide +kernel

/-- 40_geometry_stamper.md R129: in version 7 an alignment box overwrites the timing strip of row 6. -/
theorem test_geom_box_over_timing : (afterWord 0x20000007 State.reset).map (fun t => (t.size, memRead t 6 22, memRead t 6 9)) =
    some (45, 0x009, 0x00C) := by decide +kernel

/-- Section 3, V-P2: FMT Q, 5 draws 0x2183; bit 0 goes to (0, 8) and (8, S − 1), bit 7 to (8, 8). -/
theorem test_fmt : (afterWord 0x30001600 (plan 1)).map
    (fun t => (t.rsp, t.stage, t.fmtRaw, memRead t 0 8, memRead t 8 20, memRead t 8 8)) =
      some (some 0x2183, 2, 0x7591, 0x011, 0x011, 0x0F1) := by decide +kernel

/-- Section 2.7: FMT after reset is out of sequence. -/
theorem test_fmt_out_of_sequence : (afterWord 0x30000000 State.reset).map (fun t => (t.rsp, t.fcause, t.stage)) =
    some (some 0xF0000002, 2, 0) := by decide +kernel

/-- Section 3, V-P2: LVL Q records level 2. -/
theorem test_lvl : (afterWord 0x40000200 (plan 2)).map (fun t => (t.rsp, t.stage, t.level)) = some (some 0, 3, 2) := by
  decide +kernel

/-- Section 3, V-P2: MASK 5 flips the check cell (12, 12), 144 % 6 = 0, and not the data cell (9, 9), 81 % 6 = 3. -/
theorem test_mask : (afterWord 0x50001400 (plan 3)).map (fun t => (t.rsp, t.stage, t.maskId, memRead t 9 9, memRead t 12 12)) =
    some (some 0, 4, 5, 0x014, 0x01A) := by decide +kernel

/-- 42_mask_evaluator.md R191: `invert` is assigned, not toggled: V-P2's cell (10, 10) with invert 1 is cleared by mask 5. -/
theorem test_mask_assigns : (afterWord 0x50001400 { plan 3 with grid := [(cellKey 10 10, 0x016), (cellKey 11 11, 0x002)] }).map
    (fun t => (memRead t 10 10, memRead t 11 11)) = some (0x014, 0x002) := by decide +kernel

/-- Section 3, V-P4: BCHENC L, 0 and H, 4. -/
theorem test_bchenc : (afterWord 0x60000000 State.reset).map (fun t => (t.rsp, t.fmtRaw, t.stage)) = some (some 0x77C4, 0x23D6, 0) ∧
    (afterWord 0x60001300 State.reset).map (fun t => (t.rsp, t.fmtRaw)) = some (some 0x0762, 0x5370) := by decide +kernel

/-- Section 3, V-P4: MEVAL of four cells. -/
theorem test_meval : (afterWord 0x70000000 State.reset).map (fun t => t.mvec) = some 0xFF ∧
    (afterWord 0x70000507 State.reset).map (fun t => t.mvec) = some 0x99 ∧
    (afterWord 0x7000FFFF State.reset).map (fun t => t.mvec) = some 0x9D ∧
    (afterWord 0x7000B0AF State.reset).map (fun t => t.rsp) = some (some 0x5A) := by decide +kernel

/-- PXRD reads the data cell (9, 9), and one past the last column faults (section 2.6). -/
theorem test_pxrd : (afterWord 0x80000909 (plan 1)).map (fun t => (t.rsp, t.pxData)) = some (some 0x14, 0x014) ∧
    (afterWord 0x80000015 (plan 1)).map (fun t => (t.rsp, t.fcause)) = some (some 0xF0000003, 3) := by decide +kernel

/-- Section 2.6: a PXRD at STAGE 0 is out of sequence whatever its row. -/
theorem test_pxrd_no_plan : (afterWord 0x8000C800 State.reset).map (fun t => (t.rsp, t.fcause)) = some (some 0xF0000002, 2) := by
  decide +kernel

/-- PXWR of the last cell of version 1, and of the cleared pixel, which is then no longer listed. -/
theorem test_pxwr : (afterWord 0x90151414 (plan 1)).map (fun t => (t.rsp, memRead t 20 20)) = some (some 0, 0x015) ∧
    (afterWord 0x90000909 (plan 1)).map (fun t => t.grid) = some [(cellKey 12 12, 0x018)] := by decide +kernel

/-- Section 2.6: role 7 is illegal before anything else. -/
theorem test_pxwr_role_7 : (afterWord 0x901C0000 State.reset).map (fun t => (t.rsp, t.fcause)) = some (some 0xF0000001, 1) := by
  decide +kernel

/-- Section 2.6: a legal RDREG completes on a faulted block, an illegal one is refused and the cause kept. -/
theorem test_rdreg_faulted : (afterWord 0xA0000009 (faulted 3)).map (fun t => (t.rsp, t.fcause)) = some (some 3, 3) ∧
    (afterWord 0xA000000E (faulted 3)).map (fun t => (t.rsp, t.fcause)) = some (some 0xF0000003, 3) := by decide +kernel

/-- RDREG SIZE. -/
theorem test_rdreg_size : (afterWord 0xA0000002 (plan 1)).map (fun t => t.rsp) = some (some 21) := by decide +kernel

/-- 70_reset_and_hazards.md R262: a reset abandons the command in flight, here on a faulted block. -/
theorem test_reset_in_flight : next (step (given (.resetInFlight 0x20000001) (faulted 2))) = some State.reset := by decide +kernel

/-! ### Witnesses: the hypotheses of each obligation, met together, at a boundary of each clause -/

theorem test_witness_ResetFromAnyState : (given .reset (faulted 1)).host = .reset :: [] ∧
    (given (.resetInFlight 7) (plan 4)).host = .resetInFlight 7 :: [] := by decide

theorem test_witness_ResetClearsEveryRegister : (0 : BitVec 4).toNat < 14 ∧ (13 : BitVec 4).toNat < 14 := by decide

theorem test_witness_IdleKeepsAllState : (plan 4).host = [] := by decide

theorem test_witness_StepRunsDecodedCommand : (given (.command 0x20000028) State.reset).host = .command 0x20000028 :: [] ∧
    decode 0x20000028 = .ok (.geom 40) ∧ wellFormed (.geom 40) = true ∧
    (given (.command 0xA000000E) (faulted 3)).host = .command 0xA000000E :: [] ∧
    decode 0xA000000E = .error (.reservedRegister 14) := by decide

theorem test_witness_StepTakesOneMove : step (given (.command 0) State.reset) =
    .next { State.reset with fcause := 1, rsp := some 0xF0000001 } ∧ step (plan 4) = .next (plan 4) := by
  constructorm* _ ∧ _ <;> first | decide | rfl

theorem test_witness_DecodeOfEncode : wellFormed (.build 255 3 7) = true ∧ wellFormed (.pxwr 255 255 0x1FB) = true ∧
    wellFormed (.rdreg 13) = true := by decide

theorem test_witness_EveryWordIsOneCommandOrIllegal : illegalWord 0x10002000 = true ∧ illegalWord 0x10001FFF = false ∧
    illegalWord 0xA000000E = true ∧ illegalWord 0xA000000D = false ∧ wellFormed (.rdreg 13) = true ∧
    encode (.rdreg 13) = 0xA000000D := by decide

theorem test_witness_IllegalWordFaults : (plan 4).fcause = 0 ∧ illegalWord 0x20100000 = true ∧ illegalWord 0x901C0000 = true ∧
    illegalWord 0xA000000F = true ∧ illegalWord 0x0FFFFFFF = true := by decide

theorem test_witness_FaultedStateIsSticky : (faulted 3).fcause ≠ 0 ∧ decode 0x20000001 = .ok (.geom 1) ∧
    decode 0xA000000E = .error (.reservedRegister 14) ∧ decode 0xA000000D = .ok (.rdreg 13) ∧
    step (given .reset (faulted 3)) = .next State.reset ∧ State.reset.fcause ≠ (faulted 3).fcause := by
  constructorm* _ ∧ _ <;> first | decide | rfl

theorem test_witness_StageOutOfOrderFaults : (plan 2).fcause = 0 ∧ (plan 2).stage ≠ 1 ∧ State.reset.stage ≠ 1 ∧
    (plan 1).stage ≠ 2 ∧ (plan 3).stage ≠ 2 ∧ (plan 2).stage ≠ 3 ∧ (plan 4).stage ≠ 3 ∧
    State.reset.stage = 0 ∧ State.reset.fcause = 0 ∧ pixLegal 0x01B = true := by decide

theorem test_witness_CellOutsideGridFaults : (plan 1).fcause = 0 ∧ (plan 1).stage ≠ 0 ∧
    (plan 1).size.toNat ≤ (21 : BitVec 8).toNat ∧ pixLegal 0x015 = true ∧
    exec (.meval 255 255) State.reset = .next { State.reset with mvec := 0x9D, rsp := some 0x9D } := by
  constructorm* _ ∧ _ <;> first | decide | rfl

theorem test_witness_InvalidVersionEmptiesPlan : (plan 4).fcause = 0 ∧ (0 : BitVec 8).toNat < 1 ∧ 40 < (41 : BitVec 8).toNat ∧
    exec (.geom 41) State.reset = .next { State.reset with err := 1, rsp := some 0x10000000 } := by
  constructorm* _ ∧ _ <;> first | decide | rfl

theorem test_witness_InvalidVersionIsRecoverable : State.reset.fcause = 0 ∧ 40 < (41 : BitVec 8).toNat ∧
    1 ≤ (1 : BitVec 8).toNat ∧ (40 : BitVec 8).toNat ≤ 40 ∧
    exec (.geom 41) State.reset = .next { State.reset with err := 1, rsp := some 0x10000000 } := by
  constructorm* _ ∧ _ <;> first | decide | rfl

theorem test_witness_FirstConditionWins : (faulted 1).fcause ≠ 0 ∧ illegalWord 0x00000000 = true ∧ (∀ n, Instr.geom 0 ≠ .rdreg n) ∧
    State.reset.fcause = 0 ∧ State.reset.stage = 0 ∧ pixRole 0x01C = 7 ∧ pixRole 0x01B ≠ 7 := by decide

theorem test_witness_ResponseHasItsForm : (given (.command 0xA0000002) (plan 1)).host = .command 0xA0000002 :: [] ∧
    step (given (.command 0xA0000002) (plan 1)) = .next { plan 1 with rsp := some 21 } ∧
    step (given (.command 0x20000000) State.reset) = .next { State.reset with err := 1, rsp := some 0x10000000 } ∧
    step (given (.command 0) State.reset) = .next { State.reset with fcause := 1, rsp := some 0xF0000001 } := by
  constructorm* _ ∧ _ <;> first | decide | rfl

theorem test_witness_GeomStartsPlan : (plan 4).fcause = 0 ∧ 1 ≤ (1 : BitVec 8).toNat ∧ (40 : BitVec 8).toNat ≤ 40 := by decide

theorem test_witness_GeomGridIsClosedForm : State.reset.fcause = 0 ∧ 1 ≤ (40 : BitVec 8).toNat ∧ (40 : BitVec 8).toNat ≤ 40 ∧
    176 < 4 * (40 : BitVec 8).toNat + 17 := by decide

theorem test_witness_FinderZonesStand : 1 ≤ 40 ∧ 40 ≤ 40 ∧ 7 < 8 := by decide

theorem test_witness_GeomStampsNothingElse : State.reset.fcause = 0 ∧ 1 ≤ (1 : BitVec 8).toNat ∧ (1 : BitVec 8).toNat ≤ 40 := by decide

theorem test_witness_PlacedBoxesNeverOverlap : 2 ≤ 7 ∧ 7 ≤ 40 ∧ 20 ∈ axisPositions Config.alignTable 7 ∧
    36 ∈ axisPositions Config.alignTable 7 := by decide

theorem test_witness_RemainderIsTheCircuit : (31 : BitVec 5) ≠ 0 := by decide

theorem test_witness_BchencRecordsListedWords : (plan 4).fcause = 0 := by decide

theorem test_witness_FmtWritesBothPaths : (plan 1).fcause = 0 ∧ (plan 1).stage = 1 ∧ 21 ≤ (plan 1).size.toNat ∧ 14 < 15 ∧
    ∀ k < 15, cellKey 9 9 ≠ cellKey (pathA k).1 (pathA k).2 ∧
      cellKey 9 9 ≠ cellKey (pathB (plan 1).size.toNat k).1 (pathB (plan 1).size.toNat k).2 := by decide

theorem test_witness_FmtOutsideGridStops : ({ plan 1 with size := 8 } : State).fcause = 0 ∧
    ({ plan 1 with size := 8 } : State).stage = 1 ∧ ({ plan 1 with size := 8 } : State).size.toNat ≤ 8 := by decide

theorem test_witness_FormatFlagsCarryTheWord : (plan 1).fcause = 0 ∧ (plan 1).stage = 1 ∧ 21 ≤ (plan 1).size.toNat ∧ 14 < 15 ∧
    (next (exec (.fmt 2 5) (plan 1))).isSome = true ∧ pathB (plan 1).size.toNat 14 = (20, 8) := by decide +kernel

theorem test_witness_FormatCellsAreFreeAfterGeom : State.reset.fcause = 0 ∧ 1 ≤ (40 : BitVec 8).toNat ∧
    (40 : BitVec 8).toNat ≤ 40 ∧ 14 < 15 := by decide

theorem test_witness_MevalEvaluatesAllFormulas : (plan 4).fcause = 0 := by decide

theorem test_witness_MaskCircuitsEqualFormulas : (7 : BitVec 3) ≠ 4 := by decide

theorem test_witness_MaskAssignsInvert : (plan 3).fcause = 0 ∧ (plan 3).stage = 3 ∧
    pixRole (gridRead (plan 3).grid (cellKey 9 9)) = 5 ∧ pixRole (gridRead (plan 3).grid (cellKey 12 12)) = 6 := by decide

theorem test_witness_MaskWithoutPayloadKeepsGrid :
    ({ plan 3 with grid := [(cellKey 0 0, 0x005)] } : State).fcause = 0 ∧
    ({ plan 3 with grid := [(cellKey 0 0, 0x005)] } : State).stage = 3 ∧
    ∀ x ∈ ({ plan 3 with grid := [(cellKey 0 0, 0x005)] } : State).grid, pixRole x.2 ≠ 5 ∧ pixRole x.2 ≠ 6 := by decide

theorem test_witness_MaskIsDeterministic : (plan 3).fcause = 0 ∧ ({ plan 3 with level := 2 } : State).fcause = 0 ∧
    (plan 3).stage = 3 ∧ ({ plan 3 with level := 2 } : State).stage = 3 ∧
    (plan 3).size = ({ plan 3 with level := 2 } : State).size ∧
    ∀ a, gridRead (plan 3).grid a = gridRead ({ plan 3 with level := 2 } : State).grid a :=
  ⟨by decide, by decide, by decide, by decide, by decide, fun _ => rfl⟩

theorem test_witness_LvlRecordsLevel : (plan 2).fcause = 0 ∧ (plan 2).stage = 2 := by decide

theorem test_witness_BuildCompletesPlan : (plan 2).fcause = 0 ∧ 1 ≤ (1 : BitVec 8).toNat ∧ (40 : BitVec 8).toNat ≤ 40 := by decide

theorem test_witness_BuildEqualsItsStages : (plan 2).fcause = 0 ∧ 1 ≤ (40 : BitVec 8).toNat ∧ (40 : BitVec 8).toNat ≤ 40 ∧
    (0 : BitVec 8).toNat < 1 ∧ 40 < (41 : BitVec 8).toNat := by decide

theorem test_witness_BuildIsPure : State.reset.fcause = 0 ∧ (plan 2).fcause = 0 ∧ 1 ≤ (1 : BitVec 8).toNat ∧
    (1 : BitVec 8).toNat ≤ 40 ∧ (11 : BitVec 4).toNat ≤ 11 := by decide

theorem test_witness_BuildKeepsGeometry : (plan 2).fcause = 0 ∧ 1 ≤ (2 : BitVec 8).toNat ∧ (2 : BitVec 8).toNat ≤ 40 := by decide

theorem test_witness_StageFollowsTheOrder : exec (.lvl 1) (plan 2) =
    .next { plan 2 with level := 1, stage := 3, rsp := some 0 } := by rfl

theorem test_witness_OnlyListedCommandsWrite : exec (.bchenc 0 0) (plan 2) =
    .next { plan 2 with fmtRaw := 0x23D6, fmtDrawn := 0x77C4, rsp := some 0x77C4 } := by rfl

theorem test_witness_OnlyPxwrMarksPayload : (next (exec (.mask 5) (plan 3))).isSome = true ∧ isPxwr (.mask 5) = false ∧
    (next (exec (.mask 5) (plan 3))).map (fun t => pixIsPayload (gridRead t.grid (cellKey 12 12))) = some true := by decide

theorem test_witness_PxrdReturnsPixel : (plan 1).fcause = 0 ∧ (plan 1).stage ≠ 0 ∧ (20 : BitVec 8).toNat < (plan 1).size.toNat := by
  decide

theorem test_witness_PxwrReplacesPixel : (plan 1).fcause = 0 ∧ pixRole 0x01B ≠ 7 ∧ (plan 1).stage ≠ 0 ∧
    (20 : BitVec 8).toNat < (plan 1).size.toNat := by decide

theorem test_witness_WrittenPixelIsReadBack : (plan 4).fcause = 0 ∧ pixRole 0x1FB ≠ 7 ∧ (plan 4).stage ≠ 0 ∧
    (20 : BitVec 8).toNat < (plan 4).size.toNat := by decide

theorem test_witness_ReservedRegisterFaults : 14 ≤ (14 : BitVec 4).toNat ∧ 14 ≤ (15 : BitVec 4).toNat ∧
    (plan 1).fcause = 0 ∧ (faulted 2).fcause ≠ 0 := by decide

/-- Tables that are not the default ones: no alignment box but the skipped one, and the format bits in the reverse order. -/
def otherTables : Tables := ⟨fun _ => (100, 100), fun S k => (pathA (14 - k), pathB S (14 - k))⟩

theorem test_witness_GeomUnderAnyTables : State.reset.fcause = 0 ∧ 1 ≤ (7 : BitVec 8).toNat ∧ (7 : BitVec 8).toNat ≤ 40 ∧
    (placedBoxes otherTables.align 7).Pairwise (fun p q => p.1 + 4 < q.1 ∨ q.1 + 4 < p.1 ∨ p.2 + 4 < q.2 ∨ q.2 + 4 < p.2) ∧
    (placedBoxes Config.alignTable 7).Pairwise (fun p q => p.1 + 4 < q.1 ∨ q.1 + 4 < p.1 ∨ p.2 + 4 < q.2 ∨ q.2 + 4 < p.2) := by
  constructorm* _ ∧ _ <;> decide +kernel

theorem test_witness_FmtUnderAnyTables : (plan 1).fcause = 0 ∧ (plan 1).stage = 1 ∧
    (∀ k < 15, (otherTables.cells (plan 1).size.toNat k).1.1 < (plan 1).size.toNat ∧
      (otherTables.cells (plan 1).size.toNat k).1.2 < (plan 1).size.toNat ∧
      (otherTables.cells (plan 1).size.toNat k).2.1 < (plan 1).size.toNat ∧
      (otherTables.cells (plan 1).size.toNat k).2.2 < (plan 1).size.toNat) ∧
    ∀ j < 15, ∀ k < 15,
      (otherTables.cells (plan 1).size.toNat j).1 ≠ (otherTables.cells (plan 1).size.toNat k).2 ∧
      (j ≠ k → (otherTables.cells (plan 1).size.toNat j).1 ≠ (otherTables.cells (plan 1).size.toNat k).1 ∧
        (otherTables.cells (plan 1).size.toNat j).2 ≠ (otherTables.cells (plan 1).size.toNat k).2) :=
  ⟨by decide, by decide, by decide +kernel, by decide +kernel⟩

theorem test_witness_BuildUnderAnyTables : (plan 2).fcause = 0 ∧ 1 ≤ (40 : BitVec 8).toNat ∧ (40 : BitVec 8).toNat ≤ 40 ∧
    ∀ k < 15, (otherTables.cells (4 * (40 : BitVec 8).toNat + 17) k).1.1 < 4 * (40 : BitVec 8).toNat + 17 ∧
      (otherTables.cells (4 * (40 : BitVec 8).toNat + 17) k).1.2 < 4 * (40 : BitVec 8).toNat + 17 ∧
      (otherTables.cells (4 * (40 : BitVec 8).toNat + 17) k).2.1 < 4 * (40 : BitVec 8).toNat + 17 ∧
      (otherTables.cells (4 * (40 : BitVec 8).toNat + 17) k).2.2 < 4 * (40 : BitVec 8).toNat + 17 := by decide +kernel

/-- 00_scope.md R9: with the bits in the reverse order FMT M, 0 writes bit 14 to (0, 8), where the default table has bit 0. -/
theorem test_fmt_other_tables : (next (execWith otherTables (.fmt 1 0) (plan 1))).map (fun t => memRead t 0 8) = some 0x1D3 ∧
    (next (execWith Config.tables (.fmt 1 0) (plan 1))).map (fun t => memRead t 0 8) = some 0x010 := by decide +kernel

/-- A plan at STAGE 3 that meets the invariant, with MASK 5 to come. -/
theorem test_witness_StepKeepsInvariant : Inv (given (.command 0x50001400) (plan 3)) ∧
    (next (step (given (.command 0x50001400) (plan 3)))).isSome = true :=
  ⟨{ stage_legal := by decide
     no_plan := by decide
     plan_shape := by decide
     level_pending := by decide
     mask_pending := by decide
     err_legal := by decide
     raw_is_code := ⟨0, by decide⟩
     drawn_of_raw := by decide
     pxdata_legal := by decide
     grid_canonical := by decide
     grid_inside := by decide
     grid_legal := by decide }, by decide⟩

theorem test_witness_InvariantUnderAnyTables : Inv (given (.command 0x50001400) (plan 3)) ∧
    (next (stepWith otherTables (given (.command 0x50001400) (plan 3)))).isSome = true :=
  ⟨test_witness_StepKeepsInvariant.1, by decide⟩

theorem test_witness_StepNeverStops : Inv (given (.command 0x50001400) (plan 3)) ∧
    (given (.command 0x50001400) (plan 3)).host = .command 0x50001400 :: [] :=
  ⟨test_witness_StepKeepsInvariant.1, by decide⟩

end Sys2Proof.Tests
end

/-! ### The tables as an argument (00_scope.md R9) -/

namespace Sys2Proof.Machine

/-- Settles O53: `Config.tables` is the pair of default tables. -/
theorem defaultTablesAreAnArgument : Obligations.DefaultTablesAreAnArgument :=
  ⟨exec_eq_execWith, step_eq_stepWith⟩

end Sys2Proof.Machine

/-! ### The invariant on a block with any tables -/

namespace Sys2Proof.Machine

variable {s t : State} {T : Tables}

/-- The invariant speaks of no FCAUSE, MVEC, response or host move: writing them keeps it. -/
theorem Inv.withFreeFields (h : Inv s) (cause : BitVec 2) (vec : BitVec 8) (word : Option ResponseWord)
    (moves : List HostMove) : Inv { s with fcause := cause, mvec := vec, rsp := word, host := moves } :=
  { h with }

theorem Inv.after_respond (h : Inv s) (st : Status) (d : RegWord) : Inv (respond st d s) :=
  h.withFreeFields _ _ _ _

/-- ERR 0 is legal at every STAGE (10_state.md R28). -/
theorem Inv.clearErr (h : Inv s) : Inv { s with err := 0 } :=
  { h with err_legal := .inl rfl }

/-- A command that fails keeps the invariant. -/
theorem Inv.after_fails (h : Inv s) (hf : Fails s t) : Inv t := by
  obtain ⟨e, -⟩ := Fails_frame hf
  rw [e]
  exact h.withFreeFields _ _ _ _

theorem inv_resetMachine (later : List HostMove) : Inv (resetMachine later) where
  stage_legal := by simp
  no_plan := by simp
  plan_shape := by simp
  level_pending := by simp
  mask_pending := by simp
  err_legal := .inl rfl
  raw_is_code := ⟨infoBits 1 0, rfl⟩
  drawn_of_raw := .inr ⟨rfl, rfl⟩
  pxdata_legal := pixLegal_cleared
  grid_canonical := gridWf_nil
  grid_inside := by simp
  grid_legal := by simp

/-- A failed GEOM or BUILD empties the plan (60_exceptions.md R231). -/
theorem Inv.after_raiseInvalidVersion (h : Inv s) : Inv (raiseInvalidVersion s) where
  stage_legal := by simp
  no_plan := by simp
  plan_shape := by simp
  level_pending := by simp
  mask_pending := by simp
  err_legal := .inr ⟨rfl, rfl⟩
  raw_is_code := h.raw_is_code
  drawn_of_raw := h.drawn_of_raw
  pxdata_legal := h.pxdata_legal
  grid_canonical := gridWf_nil
  grid_inside := by simp
  grid_legal := by simp

/-- The geometry stage of a valid version starts a plan of the right shape under any table (40_geometry_stamper.md R131). -/
theorem Inv.after_runGeometry (h : Inv s) {v : BitVec 8} (hv : 1 ≤ v.toNat ∧ v.toNat ≤ 40) : Inv (runGeometry T v s) where
  stage_legal := by simp
  no_plan := by simp
  plan_shape _ := by
    have hver : (v.setWidth 6).toNat = v.toNat := by
      rw [BitVec.toNat_setWidth]; exact Nat.mod_eq_of_lt (by omega)
    rw [runGeometry_size_toNat hv.2, runGeometry_version, hver]
    exact ⟨hv.1, hv.2, rfl⟩
  level_pending _ := rfl
  mask_pending _ := rfl
  err_legal := .inl rfl
  raw_is_code := h.raw_is_code
  drawn_of_raw := h.drawn_of_raw
  pxdata_legal := h.pxdata_legal
  grid_canonical := stampedGrid_wf T.align hv.1
  grid_inside x hx := by
    obtain ⟨role, b, r, c, -, hr, hc, rfl⟩ := mem_stampedGrid hv.1 hx
    have hS : planSize v.toNat ≤ 177 := by unfold planSize; omega
    rw [runGeometry_size_toNat hv.2, patternWrite, keyRow_cellKey (by omega), keyCol_cellKey (by omega)]
    exact inSquare_iff.mpr ⟨hr, hc⟩
  grid_legal x hx := by
    obtain ⟨role, b, r, c, -, -, -, rfl⟩ := mem_stampedGrid hv.1 hx
    exact pixLegal_pix role b false 0

/-- The encoder's results keep the invariant (10_state.md R30, R31). -/
theorem Inv.after_recordFormat (h : Inv s) (l : BitVec 2) (m : BitVec 3) : Inv (recordFormat l m s) :=
  { h with raw_is_code := ⟨infoBits l m, rfl⟩, drawn_of_raw := .inl rfl }

/-- The format writer writes legal pixels alone. -/
theorem formatWrites_legal {cells : FormatCells} {S : Nat} {cw : BitVec 15} :
    ∀ w ∈ formatWrites cells S cw, pixLegal w.2 = true := by
  intro w hw
  obtain ⟨k, -, rfl | rfl⟩ := mem_formatWrites.mp hw
  · exact pixLegal_pix ..
  · exact pixLegal_pix ..

/-- The format stage keeps the invariant wherever it does not stop (41_format_bch.md R160). -/
theorem Inv.after_formatPlan (h : Inv s) (hstage : s.stage = 1) (hf : formatCellsFit T.cells s.size.toNat = true)
    (l : BitVec 2) (m : BitVec 3) : Inv (formatPlan T l m s) where
  stage_legal := by simp
  no_plan := by simp
  plan_shape _ := h.plan_shape (by simp [hstage])
  level_pending _ := h.level_pending (by simp [hstage])
  mask_pending _ := h.mask_pending (by simp [hstage])
  err_legal := h.err_legal.imp_right fun ⟨_, h0⟩ => by simp [hstage] at h0
  raw_is_code := ⟨infoBits l m, rfl⟩
  drawn_of_raw := .inl rfl
  pxdata_legal := h.pxdata_legal
  grid_canonical := formatPlan_wf h.grid_canonical
  grid_inside x hx := (mem_gridWrites hx).elim (formatWrites_inside hf s.size.isLt x) (h.grid_inside x)
  grid_legal x hx := (mem_gridWrites hx).elim (formatWrites_legal x) (h.grid_legal x)

/-- The level stage keeps the invariant (43_plan_sequencer_and_access.md R206). -/
theorem Inv.after_runLevel (h : Inv s) (hstage : s.stage = 2) (l : BitVec 2) : Inv (runLevel l s) :=
  { h with
    stage_legal := by simp
    no_plan := by simp
    plan_shape := fun _ => h.plan_shape (by simp [hstage])
    level_pending := by simp
    mask_pending := fun _ => h.mask_pending (by simp [hstage])
    err_legal := h.err_legal.imp_right fun ⟨_, h0⟩ => by simp [hstage] at h0 }

/-- The mask stage keeps the invariant (42_mask_evaluator.md R191). -/
theorem Inv.after_runMask (h : Inv s) (hstage : s.stage = 3) (m : BitVec 3) : Inv (runMask m s) :=
  { h with
    stage_legal := by simp
    no_plan := by simp
    plan_shape := fun _ => h.plan_shape (by simp [hstage])
    level_pending := by simp
    mask_pending := by simp
    err_legal := h.err_legal.imp_right fun ⟨_, h0⟩ => by simp [hstage] at h0
    grid_canonical := maskGrid_wf h.grid_canonical m _
    grid_inside := fun x hx => by
      obtain ⟨y, hy, hkey, -⟩ := mem_maskGrid hx
      rw [hkey]; exact h.grid_inside y hy
    grid_legal := fun x hx => by
      obtain ⟨y, hy, -, hlegal, -⟩ := mem_maskGrid hx
      rw [hlegal]; exact h.grid_legal y hy }

/-- In a state that meets the invariant every read gives a legal pixel (30_encoding.md R87). -/
theorem Inv.memRead_legal (h : Inv s) (r c : Nat) : pixLegal (memRead s r c) = true := by
  by_cases hc : memRead s r c = clearedPixel
  · rw [hc]; exact pixLegal_cleared
  · exact h.grid_legal _ (mem_of_gridRead_ne hc)

/-- A write of a legal pixel to a cell of the plan's grid keeps the invariant (20_memory.md R64). -/
theorem Inv.after_memWrite (h : Inv s) (hplan : s.stage ≠ 0) {r c : Nat} (hr : r < s.size.toNat) (hc : c < s.size.toNat)
    {p : Pixel} (hp : pixLegal p = true) : Inv (memWrite s r c p) :=
  { h with
    no_plan := fun h0 => absurd h0 hplan
    grid_canonical := gridWrite_wf h.grid_canonical _ p
    grid_inside := fun x hx => by
      rcases mem_gridWrite hx with rfl | hx
      · have := s.size.isLt
        rw [keyRow_cellKey (by omega), keyCol_cellKey (by omega)]
        exact inSquare_iff.mpr ⟨hr, hc⟩
      · exact h.grid_inside x hx
    grid_legal := fun x hx => by
      rcases mem_gridWrite hx with rfl | hx
      · exact hp
      · exact h.grid_legal x hx }

/-- BUILD keeps the invariant: each of its four stages does (43_plan_sequencer_and_access.md R203). -/
theorem Inv.after_execBuildWith (h : Inv s) {v : BitVec 8} {l : BitVec 2} {m : BitVec 3}
    (hx : execBuildWith T v l m s = .next t) : Inv t := by
  rcases execBuildWith_next hx with hf | ⟨-, ⟨-, rfl⟩ | ⟨hv, u, hu, rfl⟩⟩
  · exact h.after_fails hf
  · exact h.after_raiseInvalidVersion
  · obtain ⟨hfit, rfl⟩ := runFormat_eq_next hu
    have geometry : Inv (runGeometry T v s) := h.after_runGeometry hv
    have format := geometry.after_formatPlan rfl hfit l m
    exact (((format.after_runLevel rfl l).after_runMask rfl m).clearErr).after_respond _ _

/-- Every command keeps the invariant on a block with any tables. -/
theorem Inv.after_execWith (h : Inv s) {i : Instr} (hx : execWith T i s = .next t) : Inv t := by
  cases i with
  | build v l m => exact h.after_execBuildWith hx
  | geom v =>
    rcases execGeomWith_next hx with hf | ⟨-, ⟨-, rfl⟩ | ⟨hv, rfl⟩⟩
    · exact h.after_fails hf
    · exact h.after_raiseInvalidVersion
    · exact (h.after_runGeometry hv).after_respond _ _
  | fmt l m =>
    rcases execFmtWith_next hx with hf | ⟨-, hstage, hfit, rfl⟩
    · exact h.after_fails hf
    · exact (h.after_formatPlan hstage hfit l m).after_respond _ _
  | lvl l =>
    rcases execLvl_next hx with hf | ⟨-, hstage, rfl⟩
    · exact h.after_fails hf
    · exact (h.after_runLevel hstage l).after_respond _ _
  | mask m =>
    rcases execMask_next hx with hf | ⟨-, hstage, rfl⟩
    · exact h.after_fails hf
    · exact (h.after_runMask hstage m).after_respond _ _
  | bchenc l m =>
    rcases execBchenc_next hx with hf | ⟨-, rfl⟩
    · exact h.after_fails hf
    · exact (h.after_recordFormat l m).after_respond _ _
  | meval r c =>
    rcases execMeval_next hx with hf | ⟨-, rfl⟩
    · exact h.after_fails hf
    · exact h.withFreeFields _ _ _ _
  | pxrd r c =>
    rcases execPxrd_next hx with hf | ⟨-, -, -, rfl⟩
    · exact h.after_fails hf
    · exact { h with pxdata_legal := h.memRead_legal _ _ }
  | pxwr r c p =>
    rcases execPxwr_next hx with hf | ⟨-, hp, hplan, ⟨hr, hc⟩, rfl⟩
    · exact h.after_fails hf
    · exact (h.after_memWrite hplan hr hc hp).after_respond _ _
  | rdreg n =>
    rcases execRdreg_next hx with ⟨-, hf⟩ | ⟨x, -, rfl⟩
    · exact h.after_fails hf
    · exact h.after_respond _ _

/-- Every step keeps the invariant on a block with any tables. -/
theorem Inv.after_stepWith (h : Inv s) (hx : stepWith T s = .next t) : Inv t := by
  have accepted : ∀ later, Inv (accept later s) := fun later => h.withFreeFields _ _ _ later
  rcases stepBy_next hx with ⟨-, rfl⟩ | ⟨later, -, -, rfl⟩ | ⟨-, later, i, -, -, hx⟩ | ⟨-, later, -, -, -, hx⟩
  · exact h.withFreeFields _ _ _ _
  · exact inv_resetMachine later
  · exact (accepted later).after_execWith hx
  · rcases rejectCommand_next hx with ⟨h0, rfl⟩ | ⟨h0, rfl⟩
    · exact (accepted later).after_fails (.inl ⟨h0, rfl⟩)
    · exact (accepted later).after_fails (.inr ⟨h0, _, rfl⟩)

/-- Settles O57, by the cases of a step, each of whose named updates keeps the invariant. -/
theorem invariantUnderAnyTables : Obligations.InvariantUnderAnyTables :=
  fun _ _ _ h hx => h.after_stepWith hx

end Sys2Proof.Machine

/-! ### FMT and BUILD on a block with any tables -/

namespace Sys2Proof.Machine

variable {s : State} {T : Tables}

theorem execFmtWith_valid {l : BitVec 2} {m : BitVec 3} (h : s.fcause = 0) (hstage : s.stage = 1)
    (hf : formatCellsFit T.cells s.size.toNat = true) :
    execFmtWith T l m s = .next (respond .ok ((formatDrawn l m).setWidth 16) (formatPlan T l m s)) := by
  rw [execFmtWith, unlessFaulted_live h, requireStage_pass hstage, runFormat_next hf, andThen_next]

theorem execLvl_valid {l : BitVec 2} (h : s.fcause = 0) (hstage : s.stage = 2) :
    execLvl l s = .next (respond .ok 0 (runLevel l s)) := by
  rw [execLvl, unlessFaulted_live h, requireStage_pass hstage]

theorem execMask_valid {m : BitVec 3} (h : s.fcause = 0) (hstage : s.stage = 3) :
    execMask m s = .next (respond .ok 0 (runMask m s)) := by
  rw [execMask, unlessFaulted_live h, requireStage_pass hstage]

theorem formatCellsFit_iff {cells : FormatCells} {S : Nat} :
    formatCellsFit cells S = true ↔
      ∀ k < 15, (cells S k).1.1 < S ∧ (cells S k).1.2 < S ∧ (cells S k).2.1 < S ∧ (cells S k).2.2 < S := by
  simp [formatCellsFit, and_assoc]

/-- BUILD of a valid version completes as its four stages one after another, short of the response
(43_plan_sequencer_and_access.md R203, R204). -/
theorem execBuildWith_stages {v : BitVec 8} (l : BitVec 2) (m : BitVec 3) (h : s.fcause = 0)
    (hv : 1 ≤ v.toNat ∧ v.toNat ≤ 40) (hf : formatCellsFit T.cells (planSize v.toNat) = true) :
    ∃ t a b c d, execBuildWith T v l m s = .next t ∧ execGeomWith T v s = .next a ∧ execFmtWith T l m a = .next b ∧
      execLvl l b = .next c ∧ execMask m c = .next d ∧ t = { d with rsp := t.rsp } ∧
      t.rsp = some (responseWord .ok (BitVec.ofNat 16 (planSize v.toNat))) := by
  have hsize := runGeometry_size_toNat (s := s) (T := T) hv.2
  refine ⟨_, _, _, _, _, execBuildWith_valid h hv hf, execGeomWith_valid h hv, execFmtWith_valid h rfl ?_,
    execLvl_valid h rfl, execMask_valid h rfl, rfl, ?_⟩
  · rwa [respond_size, hsize]
  · rw [respond_rsp, formatPlan_size, ← BitVec.ofNat_toNat, hsize]

/-- Settles O56, from the stages of `execBuildWith_stages`. -/
theorem buildUnderAnyTables : Obligations.BuildUnderAnyTables :=
  fun _ _ _ l m h h1 h40 hcells => execBuildWith_stages l m h ⟨h1, h40⟩ (formatCellsFit_iff.mpr hcells)

/-! The format writer under any table of distinct cells -/

/-- The thirty cells of a format table at side S are distinct. -/
def formatCellsDistinct (cells : FormatCells) (S : Nat) : Prop :=
  ∀ j < 15, ∀ k < 15, (cells S j).1 ≠ (cells S k).2 ∧
    (j ≠ k → (cells S j).1 ≠ (cells S k).1 ∧ (cells S j).2 ≠ (cells S k).2)

/-- The code words are those that 41_format_bch.md R156 lists. -/
theorem formatCodeWord_eq_listedCode (l : BitVec 2) (m : BitVec 3) : formatCodeWord l m = listedCode l m := by
  revert l m; decide

/-- The drawn words are those that 41_format_bch.md R156 lists. -/
theorem formatDrawn_eq_listedDrawn (l : BitVec 2) (m : BitVec 3) : formatDrawn l m = listedDrawn l m := by
  revert l m; decide

/-- A format pixel as a number: the role code 4 in bits 4 to 2, the offset from bit 5, the flags (30_encoding.md R84, R85). -/
theorem pix_format_toNat (b i : Bool) (o : BitVec 4) :
    (pix .format b i o).toNat = 0x010 + 0x020 * o.toNat + 2 * i.toNat + b.toNat := by
  revert b i o; decide

/-- The pixel of bit k as a number: it shows bit k of the drawn word and is inverted where 0x5412 has a bit
(41_format_bch.md R155, R159). -/
theorem formatPixel_toNat (l : BitVec 2) (m : BitVec 3) {k : Nat} (hk : k < 15) :
    (formatPixel (formatCodeWord l m) k).toNat =
      0x010 + 0x020 * k + 2 * ((0x5412 : BitVec 15).getLsbD k).toNat + ((formatDrawn l m).getLsbD k).toNat := by
  have black : formatBlack (formatCodeWord l m) k = (formatDrawn l m).getLsbD k := (BitVec.getLsbD_xor ..).symm
  have offset : (BitVec.ofNat 4 k).toNat = k := by
    rw [BitVec.toNat_ofNat]; exact Nat.mod_eq_of_lt (by omega)
  rw [formatPixel, pix_format_toNat, black, offset]
  rfl

/-- The format writer leaves the pixel of bit k in both cells of bit k, under any table of distinct cells that fit
(41_format_bch.md R159). -/
theorem gridRead_format_of_distinct {cells : FormatCells} {S : Nat} (hS : S < 256) (hf : formatCellsFit cells S = true)
    (hd : formatCellsDistinct cells S) {cw : BitVec 15} {k : Nat} (hk : k < 15) (g : Grid) {q : Nat × Nat}
    (hq : q = (cells S k).1 ∨ q = (cells S k).2) :
    gridRead (gridWrites (formatWrites cells S cw) g) (cellKey q.1 q.2) = formatPixel cw k := by
  have fit := formatCellsFit_iff.mp hf
  have hq2 : q.2 < 256 := by have := fit k hk; rcases hq with rfl | rfl <;> omega
  refine gridRead_writes_of_agree (mem_formatWrites.mpr ⟨k, hk, ?_⟩) (fun w hw hkey => ?_) g
  · rcases hq with rfl | rfl
    · exact .inl rfl
    · exact .inr rfl
  · obtain ⟨j, hj, hw⟩ := mem_formatWrites.mp hw
    have fitj := fit j hj
    have same : (cells S j).1 = q ∨ (cells S j).2 = q := by
      rcases hw with rfl | rfl <;> rw [cellKey_inj (by omega) hq2] at hkey
      · exact .inl (Prod.ext hkey.1 hkey.2)
      · exact .inr (Prod.ext hkey.1 hkey.2)
    have bit : j = k := by
      by_contra hne
      rcases same with e | e <;> rcases hq with rfl | rfl
      · exact ((hd j hj k hk).2 hne).1 e
      · exact (hd j hj k hk).1 e
      · exact (hd k hk j hj).1 e.symm
      · exact ((hd j hj k hk).2 hne).2 e
    subst bit
    rcases hw with rfl | rfl <;> rfl

/-- Settles O55, from what the format writer leaves in its own cells and in every other. -/
theorem fmtUnderAnyTables : Obligations.FmtUnderAnyTables := by
  intro T s l m h hstage hcells hdistinct
  have fit : formatCellsFit T.cells s.size.toNat = true := formatCellsFit_iff.mpr hcells
  refine ⟨(formatPlan T l m s).grid, ?_, fun k hk => ⟨formatPixel (formatCodeWord l m) k, ?_, ?_, ?_⟩, fun a ha => ?_⟩
  · rw [← formatCodeWord_eq_listedCode, ← formatDrawn_eq_listedDrawn]
    exact execFmtWith_valid h hstage fit
  · rw [← formatDrawn_eq_listedDrawn]
    exact formatPixel_toNat l m hk
  · exact gridRead_format_of_distinct s.size.isLt fit hdistinct hk _ (.inl rfl)
  · exact gridRead_format_of_distinct s.size.isLt fit hdistinct hk _ (.inr rfl)
  · exact gridRead_format_other ha _

end Sys2Proof.Machine

/-! ### The geometry in closed form, on a block with any tables -/

namespace Sys2Proof.Machine

variable {S r c : Nat}

/-- Two lists of writes one after the other read as the one list. -/
theorem gridRead_writes_append (ws ws' : List Cell) (g : Grid) (a : Nat) :
    gridRead (gridWrites (ws ++ ws') g) a = gridRead (gridWrites ws' (gridWrites ws g)) a := by
  simp only [gridRead_writes, List.foldl_append]

/-! The timing step -/

/-- What the timing step leaves: row 6 and column 6 alternate from black (40_geometry_stamper.md R122). -/
theorem gridRead_timing (hS : S < 256) (hr : r < S) (hc : c < S) (g : Grid) :
    gridRead (gridWrites (timingWrites S) g) (cellKey r c) =
      if r = 6 then pix .timing (c % 2 == 0) false 0
      else if c = 6 then pix .timing (r % 2 == 0) false 0
      else gridRead g (cellKey r c) := by
  have same : ∀ w ∈ timingWrites S, w.1 = cellKey r c →
      r = 6 ∧ w.2 = pix .timing (c % 2 == 0) false 0 ∨ c = 6 ∧ w.2 = pix .timing (r % 2 == 0) false 0 := by
    intro w hw hkey
    obtain ⟨k, hk, rfl | rfl⟩ := mem_timingWrites.mp hw <;>
      obtain ⟨rfl, rfl⟩ := (cellKey_inj (by omega) (by omega)).mp hkey
    · exact .inl ⟨rfl, rfl⟩
    · exact .inr ⟨rfl, rfl⟩
  split
  case isTrue h6 =>
    subst h6
    refine gridRead_writes_of_agree (mem_timingWrites.mpr ⟨c, hc, .inl rfl⟩) (fun w hw hkey => ?_) g
    rcases same w hw hkey with ⟨-, e⟩ | ⟨rfl, e⟩ <;> exact e
  case isFalse h6 =>
    split
    case isTrue hc6 =>
      subst hc6
      refine gridRead_writes_of_agree (mem_timingWrites.mpr ⟨r, hr, .inr rfl⟩) (fun w hw hkey => ?_) g
      rcases same w hw hkey with ⟨e, -⟩ | ⟨-, e⟩
      · exact absurd e h6
      · exact e
    case isFalse hc6 =>
      refine gridRead_writes_of_forall_ne (fun w hw hkey => ?_) g
      rcases same w hw hkey with ⟨e, -⟩ | ⟨e, -⟩
      · exact h6 e
      · exact hc6 e

/-! The position step -/

/-- A ring number does not change when box and cell move together. -/
theorem ringOf_add (y x dy dx a b : Nat) : ringOf (y + dy) (x + dx) (y + a) (x + b) = ringOf dy dx a b := by
  have shift : ∀ z d e : Nat, distance (z + d) (z + e) = distance d e := by
    intro z d e; unfold distance; split <;> split <;> omega
  rw [ringOf, shift, shift, ringOf]

theorem mem_finderCorners {q : Nat × Nat} :
    q ∈ finderCorners S ↔ q.1 = 0 ∧ q.2 = 0 ∨ q.1 = 0 ∧ q.2 = S - 7 ∨ q.1 = S - 7 ∧ q.2 = 0 := by
  simp [finderCorners, Prod.ext_iff]

/-- A cell lies in the finder box with top-left cell (y, x) or its border (40_geometry_stamper.md R123, R124). -/
abbrev nearCorner (y x r c : Nat) : Prop := (y ≤ r + 1 ∧ r ≤ y + 7) ∧ (x ≤ c + 1 ∧ c ≤ x + 7)

theorem distance_le_iff {a b n : Nat} : distance a b ≤ n ↔ a ≤ b + n ∧ b ≤ a + n := by
  unfold distance; split <;> omega

/-- The box itself is the rings 0 to 3 around its centre (40_geometry_stamper.md R123). -/
theorem ringOf_le_three_iff {y x : Nat} :
    ringOf r c (y + 3) (x + 3) ≤ 3 ↔ (y ≤ r ∧ r ≤ y + 6) ∧ (x ≤ c ∧ c ≤ x + 6) := by
  rw [ringOf, max_le_iff, distance_le_iff, distance_le_iff]; omega

/-- A finder box and its border together write each cell near the corner with the pixel of its ring
(40_geometry_stamper.md R123, R124). -/
theorem mem_cornerWrites {y x : Nat} (hy : y + 7 ≤ S) (hx : x + 7 ≤ S) {w : Cell} :
    (w ∈ finderWrites y x ∨ w ∈ borderWrites S y x) ↔
      ∃ r < S, ∃ c < S, nearCorner y x r c ∧ w = (cellKey r c, zonePixel (ringOf r c (y + 3) (x + 3))) := by
  have inBox : ∀ {r c : Nat}, (y ≤ r ∧ r ≤ y + 6) ∧ (x ≤ c ∧ c ≤ x + 6) →
      zonePixel (ringOf r c (y + 3) (x + 3)) = pix .position (ringOf r c (y + 3) (x + 3) != 2) false 0 := by
    intro r c h
    rw [zonePixel, decide_eq_true (ringOf_le_three_iff.mpr h), Bool.true_and]
  have onBorder : ∀ {r c : Nat}, ¬((y ≤ r ∧ r ≤ y + 6) ∧ (x ≤ c ∧ c ≤ x + 6)) →
      zonePixel (ringOf r c (y + 3) (x + 3)) = pix .position false false 0 := by
    intro r c h
    rw [zonePixel, decide_eq_false (mt ringOf_le_three_iff.mp h), Bool.false_and]
  constructor
  · rintro (h | h)
    · obtain ⟨dy, hdy, dx, hdx, rfl⟩ := mem_finderWrites.mp h
      refine ⟨y + dy, by omega, x + dx, by omega, ⟨by omega, by omega⟩, ?_⟩
      rw [inBox ⟨by omega, by omega⟩, ringOf_add]
      rfl
    · obtain ⟨r, hr, c, hc, h1, h2, hout, rfl⟩ := mem_borderWrites.mp h
      exact ⟨r, hr, c, hc, ⟨h1, h2⟩, by rw [onBorder hout]; rfl⟩
  · rintro ⟨r, hr, c, hc, ⟨h1, h2⟩, rfl⟩
    by_cases hin : (y ≤ r ∧ r ≤ y + 6) ∧ (x ≤ c ∧ c ≤ x + 6)
    · refine .inl (mem_finderWrites.mpr ⟨r - y, by omega, c - x, by omega, ?_⟩)
      obtain ⟨dy, rfl⟩ := Nat.exists_eq_add_of_le hin.1.1
      obtain ⟨dx, rfl⟩ := Nat.exists_eq_add_of_le hin.2.1
      rw [inBox hin, ringOf_add, Nat.add_sub_cancel_left, Nat.add_sub_cancel_left]
      rfl
    · exact .inr (mem_borderWrites.mpr ⟨r, hr, c, hc, h1, h2, hin, by rw [onBorder hin]; rfl⟩)

/-- A write of the position step is a cell near one of the three corners with the pixel of its ring. -/
theorem mem_positionWrites_iff (hS : 7 ≤ S) {w : Cell} :
    w ∈ positionWrites S ↔ ∃ q ∈ finderCorners S, ∃ r < S, ∃ c < S, nearCorner q.1 q.2 r c ∧
      w = (cellKey r c, zonePixel (ringOf r c (q.1 + 3) (q.2 + 3))) := by
  have inside : ∀ q ∈ finderCorners S, q.1 + 7 ≤ S ∧ q.2 + 7 ≤ S := by
    intro q hq
    rw [mem_finderCorners] at hq
    omega
  rw [mem_positionWrites]
  exact exists_congr fun q => and_congr_right fun hq => mem_cornerWrites (inside q hq).1 (inside q hq).2

/-- In a grid of a plan's side no cell is near two corners. -/
theorem nearCorner_unique (hS : 21 ≤ S) {p q : Nat × Nat} (hp : p ∈ finderCorners S) (hq : q ∈ finderCorners S)
    (hpr : nearCorner p.1 p.2 r c) (hqr : nearCorner q.1 q.2 r c) : p = q := by
  rw [mem_finderCorners] at hp hq
  exact Prod.ext (by omega) (by omega)

/-- What the position step leaves near a corner (40_geometry_stamper.md R130 case 2). -/
theorem gridRead_position (hS : 21 ≤ S) (hS' : S < 256) (hr : r < S) (hc : c < S) {q : Nat × Nat}
    (hq : q ∈ finderCorners S) (hqr : nearCorner q.1 q.2 r c) (g : Grid) :
    gridRead (gridWrites (positionWrites S) g) (cellKey r c) = zonePixel (ringOf r c (q.1 + 3) (q.2 + 3)) := by
  refine gridRead_writes_of_agree ((mem_positionWrites_iff (by omega)).mpr ⟨q, hq, r, hr, c, hc, hqr, rfl⟩)
    (fun w hw hkey => ?_) g
  obtain ⟨p, hp, r', -, c', hc', hpr, rfl⟩ := (mem_positionWrites_iff (by omega)).mp hw
  obtain ⟨rfl, rfl⟩ := (cellKey_inj (by omega) (by omega)).mp hkey
  rw [nearCorner_unique hS hp hq hpr hqr]

/-- The position step leaves a cell near no corner alone. -/
theorem gridRead_position_other (hS : 7 ≤ S) (hS' : S < 256) (hc : c < S)
    (h : ∀ q ∈ finderCorners S, ¬nearCorner q.1 q.2 r c) (g : Grid) :
    gridRead (gridWrites (positionWrites S) g) (cellKey r c) = gridRead g (cellKey r c) := by
  refine gridRead_writes_of_forall_ne (fun w hw hkey => ?_) g
  obtain ⟨q, hq, r', -, c', hc', hqr, rfl⟩ := (mem_positionWrites_iff hS).mp hw
  obtain ⟨rfl, rfl⟩ := (cellKey_inj (by omega) (by omega)).mp hkey
  exact h q hq hqr

/-- What the timing and position steps leave in a new grid (40_geometry_stamper.md R130 cases 2 to 5). -/
theorem gridRead_timing_position (hS : 21 ≤ S) (hS' : S < 256) (hr : r < S) (hc : c < S) :
    gridRead (gridWrites (timingWrites S ++ positionWrites S) allocatedGrid) (cellKey r c) = closedBase S r c := by
  rw [gridRead_writes_append, closedBase]
  split
  case isTrue h =>
    exact gridRead_position hS hS' hr hc (q := (0, 0)) (by simp [finderCorners]) (by dsimp only; omega) _
  case isFalse h1 =>
  split
  case isTrue h =>
    rw [gridRead_position hS hS' hr hc (q := (0, S - 7)) (by simp [finderCorners]) (by dsimp only; omega),
      show S - 7 + 3 = S - 4 by omega]
  case isFalse h2 =>
  split
  case isTrue h =>
    rw [gridRead_position hS hS' hr hc (q := (S - 7, 0)) (by simp [finderCorners]) (by dsimp only; omega),
      show S - 7 + 3 = S - 4 by omega]
  case isFalse h3 =>
    rw [gridRead_position_other (by omega) hS' hc, gridRead_timing hS' hr hc]
    · rfl
    · intro q hq
      rw [mem_finderCorners] at hq
      omega

/-! The alignment step -/

variable {table : AlignTable} {v : Nat}

theorem boxCovers_iff {q : Nat × Nat} :
    boxCovers r c q = true ↔ (q.1 ≤ r ∧ r ≤ q.1 + 4) ∧ (q.2 ≤ c ∧ c ≤ q.2 + 4) := by
  rw [boxCovers, Bool.and_eq_true, decide_eq_true_eq, decide_eq_true_eq]

/-- An alignment box writes each cell it covers with the pixel of its ring (40_geometry_stamper.md R125). -/
theorem mem_alignmentWrites_iff {q : Nat × Nat} {w : Cell} :
    w ∈ alignmentWrites q.1 q.2 ↔ ∃ r c, boxCovers r c q = true ∧
      w = patternWrite .alignment (ringOf r c (q.1 + 2) (q.2 + 2) != 1) r c := by
  rw [mem_alignmentWrites]
  constructor
  · rintro ⟨dy, hdy, dx, hdx, rfl⟩
    refine ⟨q.1 + dy, q.2 + dx, boxCovers_iff.mpr (by omega), ?_⟩
    rw [ringOf_add]
    rfl
  · rintro ⟨r, c, hcov, rfl⟩
    obtain ⟨⟨hy, hy'⟩, hx, hx'⟩ := boxCovers_iff.mp hcov
    obtain ⟨dy, rfl⟩ := Nat.exists_eq_add_of_le hy
    obtain ⟨dx, rfl⟩ := Nat.exists_eq_add_of_le hx
    refine ⟨dy, by omega, dx, by omega, ?_⟩
    rw [ringOf_add]
    rfl

/-- The footprints of two boxes share no cell (40_geometry_stamper.md R129). -/
abbrev boxesApart (p q : Nat × Nat) : Prop := p.1 + 4 < q.1 ∨ q.1 + 4 < p.1 ∨ p.2 + 4 < q.2 ∨ q.2 + 4 < p.2

/-- Where placed boxes do not overlap, at most one covers a cell. -/
theorem coveringBox_unique (hd : (placedBoxes table v).Pairwise boxesApart) {p q : Nat × Nat}
    (hp : p ∈ placedBoxes table v) (hq : q ∈ placedBoxes table v) (hpr : boxCovers r c p = true)
    (hqr : boxCovers r c q = true) : p = q := by
  by_contra hne
  have symmetric : Std.Symm boxesApart := ⟨fun _ _ h => by unfold boxesApart at h ⊢; omega⟩
  have apart : boxesApart p q := hd.forall hp hq hne
  rw [boxCovers_iff] at hpr hqr
  simp only [boxesApart] at apart
  omega

/-- A write of the alignment step to a cell of the grid is of a placed box that covers the cell, with the pixel
of its ring there. -/
theorem mem_alignmentStep_cell (hS : planSize v < 256) (hc : c < planSize v) {p : Pixel} :
    (cellKey r c, p) ∈ alignmentStep table v ↔ ∃ q ∈ placedBoxes table v, boxCovers r c q = true ∧
      p = pix .alignment (ringOf r c (q.1 + 2) (q.2 + 2) != 1) false 0 := by
  rw [mem_alignmentStep]
  refine exists_congr fun q => and_congr_right fun hq => ?_
  obtain ⟨-, hx, -⟩ := placedBoxes_clear hq
  have hS' : 9 ≤ planSize v := by unfold planSize; omega
  rw [mem_alignmentWrites_iff]
  constructor
  · rintro ⟨r', c', hcov, e⟩
    have hx' := (boxCovers_iff.mp hcov).2.2
    rw [patternWrite, Prod.mk.injEq, cellKey_inj (by omega) (by omega)] at e
    obtain ⟨⟨rfl, rfl⟩, rfl⟩ := e
    exact ⟨hcov, rfl⟩
  · rintro ⟨hcov, rfl⟩
    exact ⟨r, c, hcov, rfl⟩

/-- The stamped grid is the closed form under any table whose placed boxes do not overlap (40_geometry_stamper.md R130). -/
theorem gridRead_stampedGrid (hv : 1 ≤ v) (hv' : v ≤ 40) (hd : (placedBoxes table v).Pairwise boxesApart)
    (hr : r < planSize v) (hc : c < planSize v) :
    gridRead (stampedGrid table v) (cellKey r c) = closedPixel table v r c := by
  have hS : 21 ≤ planSize v := by unfold planSize; omega
  have hS' : planSize v < 256 := by unfold planSize; omega
  have writes {p : Pixel} := mem_alignmentStep_cell (table := table) (r := r) (p := p) hS' hc
  rw [stampedGrid, gridRead_writes_append, closedPixel]
  split
  case h_1 q hfind =>
    have hq := List.mem_of_find?_eq_some hfind
    have hcov := List.find?_some hfind
    refine gridRead_writes_of_agree (writes.mpr ⟨q, hq, hcov, rfl⟩) (fun w hw hkey => ?_) _
    obtain ⟨q', hq', hcov', hpix⟩ := writes.mp (hkey ▸ hw : (cellKey r c, w.2) ∈ _)
    rw [hpix, coveringBox_unique hd hq' hq hcov' hcov]
  case h_2 hfind =>
    rw [gridRead_writes_of_forall_ne, gridRead_timing_position hS hS' hr hc]
    intro w hw hkey
    obtain ⟨q, hq, hcov, -⟩ := writes.mp (hkey ▸ hw : (cellKey r c, w.2) ∈ _)
    exact List.find?_eq_none.mp hfind q hq hcov

/-- Settles O54, from the closed form of the stamped grid. -/
theorem geomUnderAnyTables : Obligations.GeomUnderAnyTables :=
  fun T _ v h h1 h40 hd =>
    ⟨stampedGrid T.align v.toNat, execGeomWith_valid h ⟨h1, h40⟩, fun _ _ => gridRead_stampedGrid h1 h40 hd⟩

end Sys2Proof.Machine

/-! ### The registers and the grid: reset, the invariant, who writes what (10_state.md) -/

namespace Sys2Proof.Machine

/-- Settles O51: a step is a step of the block with the default tables, and under any tables a step keeps the invariant. -/
theorem stepKeepsInvariant : Obligations.StepKeepsInvariant := by
  intro s t h hx
  rw [step_eq_stepWith] at hx
  exact h.after_stepWith hx

/-- Settles O42: a command that fails writes FCAUSE alone, and each command that completes answers a named update of its own
registers. -/
theorem onlyListedCommandsWrite : Obligations.OnlyListedCommandsWrite := by
  intro i s t h
  by_cases hf : Fails s t
  · obtain ⟨e, -, hcause, -⟩ := Fails_frame hf
    rw [e]
    simpa using hcause.symm
  rw [exec_eq_execWith] at h
  cases i with
  | build v l m =>
    obtain ⟨-, ⟨-, rfl⟩ | ⟨-, u, hu, rfl⟩⟩ := (execBuildWith_next h).resolve_left hf
    · simp [startsPlan]
    · obtain ⟨-, rfl⟩ := runFormat_eq_next hu
      simp [startsPlan, isBuild]
  | geom v =>
    obtain ⟨-, ⟨-, rfl⟩ | ⟨-, rfl⟩⟩ := (execGeomWith_next h).resolve_left hf
    · simp [startsPlan]
    · simp [startsPlan]
  | fmt l m =>
    obtain ⟨-, -, -, rfl⟩ := (execFmtWith_next h).resolve_left hf
    simp [isFmt]
  | lvl l =>
    obtain ⟨-, -, rfl⟩ := (execLvl_next h).resolve_left hf
    simp [isLvl]
  | mask m =>
    obtain ⟨-, -, rfl⟩ := (execMask_next h).resolve_left hf
    simp [isMask]
  | bchenc l m =>
    obtain ⟨-, rfl⟩ := (execBchenc_next h).resolve_left hf
    simp [isBchenc]
  | meval r c =>
    obtain ⟨-, rfl⟩ := (execMeval_next h).resolve_left hf
    simp [isMeval]
  | pxrd r c =>
    obtain ⟨-, -, -, rfl⟩ := (execPxrd_next h).resolve_left hf
    simp [isPxrd]
  | pxwr r c p =>
    obtain ⟨-, -, -, -, rfl⟩ := (execPxwr_next h).resolve_left hf
    simp [isPxwr]
  | rdreg n =>
    obtain ⟨x, -, rfl⟩ := (execRdreg_next h).resolve_left fun hr => hf hr.2
    simp

/-- Settles O1: the fourteen readable indices one by one, on the literal reset state. -/
theorem resetClearsEveryRegister : Obligations.ResetClearsEveryRegister :=
  ⟨by decide, rfl, rfl⟩

/-- Settles O49: the three counters have no storage; their reads are the constant 0 in every state (10_state.md R27). -/
theorem capacityCountersReadZero : Obligations.CapacityCountersReadZero :=
  fun _ => ⟨rfl, rfl, rfl⟩

/-- Settles O50: State.reset is a reset with no host move to come. -/
theorem invariantAtReset : Obligations.InvariantAtReset :=
  inv_resetMachine []

end Sys2Proof.Machine

/-! ### The grid as a memory: what is written is read back, no access outside it (20_memory.md) -/

namespace Sys2Proof.Machine

variable {s : State} {T : Tables} {r c : BitVec 8} {p : Pixel} {l : BitVec 2} {m : BitVec 3}

theorem pixLegal_iff : pixLegal p = true ↔ pixRole p ≠ 7 := bne_iff_ne

theorem execPxrd_valid (h : s.fcause = 0) (hplan : s.stage ≠ 0) (hr : r.toNat < s.size.toNat)
    (hc : c.toNat < s.size.toNat) :
    execPxrd r c s = .next (respond .ok ((memRead s r.toNat c.toNat).setWidth 16)
      { s with pxData := memRead s r.toNat c.toNat }) := by
  rw [execPxrd, unlessFaulted_live h, requirePlan_pass hplan, requireCell_pass hr hc]

theorem execPxwr_valid (h : s.fcause = 0) (hp : pixRole p ≠ 7) (hplan : s.stage ≠ 0) (hr : r.toNat < s.size.toNat)
    (hc : c.toNat < s.size.toNat) :
    execPxwr r c p s = .next (respond .ok 0 (memWrite s r.toNat c.toNat p)) := by
  rw [execPxwr, unlessFaulted_live h, requireLegal_pass (pixLegal_iff.mpr hp), requirePlan_pass hplan,
    requireCell_pass hr hc]

/-- A response is no write to the grid, so a read after it finds the pixel written (20_memory.md R63, R64). -/
theorem memRead_respond_memWrite_same (st : Status) (d : RegWord) (s : State) (r c : Nat) (p : Pixel) :
    memRead (respond st d (memWrite s r c p)) r c = p := by
  rw [memRead, respond_grid, memWrite_grid, gridRead_write_same]

/-- Settles O46: PXWR changes no register that a check of PXRD reads, so PXRD completes too, on the pixel written. -/
theorem writtenPixelIsReadBack : Obligations.WrittenPixelIsReadBack := by
  intro s r c p h hp hplan hr hc
  have readBack := memRead_respond_memWrite_same .ok 0 s r.toNat c.toNat p
  refine ⟨_, _, execPxwr_valid h hp hplan hr hc, execPxrd_valid h hplan hr hc, readBack, ?_, rfl⟩
  rw [respond_rsp, readBack]

/-- A format table with a cell outside the grid stops FMT at STAGE 1 (20_memory.md R64, log entry 7). -/
theorem execFmtWith_outside (h : s.fcause = 0) (hstage : s.stage = 1)
    (hf : ¬formatCellsFit T.cells s.size.toNat = true) : execFmtWith T l m s = .fault .cellOutsideGrid := by
  rw [execFmtWith, unlessFaulted_live h, requireStage_pass hstage, runFormat, if_neg hf, andThen]

/-- The cell of bit 0 on path A, (0, 8), lies in no grid of side 8 or less. -/
theorem not_formatCellsFit_default {S : Nat} (hS : S ≤ 8) : ¬formatCellsFit Config.tables.cells S = true := by
  intro hf
  have column : 8 < S := (formatCellsFit_iff.mp hf 0 (by decide)).2.1
  omega

/-- Settles O28, by the default table's cell (0, 8). -/
theorem fmtOutsideGridStops : Obligations.FmtOutsideGridStops :=
  fun _ _ _ h hstage hS => execFmtWith_outside h hstage (not_formatCellsFit_default hS)

end Sys2Proof.Machine

/-! ### The encoding: the three formats, decode and encode, the illegal words (30_encoding.md) -/

namespace Sys2Proof.Machine

open BitVec

variable {w : CommandWord} {i : Instr}

/-- The word of format P with these fields (30_encoding.md R92). -/
def formatP (op : BitVec 4) (zero : BitVec 15) (m : BitVec 3) (l : BitVec 2) (v : BitVec 8) : CommandWord :=
  op ++ zero ++ m ++ l ++ v

/-- The word of format C with these fields (30_encoding.md R93). -/
def formatC (op : BitVec 4) (zero : BitVec 3) (p : Pixel) (row col : BitVec 8) : CommandWord :=
  op ++ zero ++ p ++ row ++ col

/-- The word of format R with these fields (30_encoding.md R94). -/
def formatR (op : BitVec 4) (zero : BitVec 24) (n : BitVec 4) : CommandWord :=
  op ++ zero ++ n

/-! Each field is read back from a word of its format -/

section
variable (op : BitVec 4) (z15 : BitVec 15) (m : BitVec 3) (l : BitVec 2) (v : BitVec 8) (z3 : BitVec 3) (p : Pixel)
  (row col : BitVec 8) (z24 : BitVec 24) (n : BitVec 4)

@[simp] theorem opField_formatP : opField (formatP op z15 m l v) = op := by
  refine (extractLsb'_append_eq_of_le (by decide)).trans ((extractLsb'_append_eq_of_le (by decide)).trans ?_)
  exact (extractLsb'_append_eq_of_le (by decide)).trans extractLsb'_append_eq_left

@[simp] theorem maskField_formatP : maskField (formatP op z15 m l v) = m :=
  (extractLsb'_append_eq_of_le (by decide)).trans ((extractLsb'_append_eq_of_le (by decide)).trans extractLsb'_append_eq_right)

@[simp] theorem levelField_formatP : levelField (formatP op z15 m l v) = l :=
  (extractLsb'_append_eq_of_le (by decide)).trans extractLsb'_append_eq_right

@[simp] theorem versionField_formatP : versionField (formatP op z15 m l v) = v :=
  extractLsb'_append_eq_right

@[simp] theorem opField_formatC : opField (formatC op z3 p row col) = op := by
  refine (extractLsb'_append_eq_of_le (by decide)).trans ((extractLsb'_append_eq_of_le (by decide)).trans ?_)
  exact (extractLsb'_append_eq_of_le (by decide)).trans extractLsb'_append_eq_left

@[simp] theorem pixField_formatC : pixField (formatC op z3 p row col) = p :=
  (extractLsb'_append_eq_of_le (by decide)).trans ((extractLsb'_append_eq_of_le (by decide)).trans extractLsb'_append_eq_right)

@[simp] theorem rowField_formatC : rowField (formatC op z3 p row col) = row :=
  (extractLsb'_append_eq_of_le (by decide)).trans extractLsb'_append_eq_right

@[simp] theorem colField_formatC : colField (formatC op z3 p row col) = col :=
  extractLsb'_append_eq_right

@[simp] theorem opField_formatR : opField (formatR op z24 n) = op :=
  (extractLsb'_append_eq_of_le (by decide)).trans extractLsb'_append_eq_left

@[simp] theorem regField_formatR : regField (formatR op z24 n) = n :=
  extractLsb'_append_eq_right

end

/-! Every word is the word of its own fields, in each format -/

/-- Two neighbouring fields of a word joined. -/
theorem extract_append_extract {lo n hi k : Nat} (h : hi = lo + n) :
    w.extractLsb' hi k ++ w.extractLsb' lo n = w.extractLsb' lo (k + n) :=
  extractLsb'_append_extractLsb'_eq_extractLsb' h

theorem formatP_fields (w : CommandWord) :
    formatP (opField w) (w.extractLsb' 13 15) (maskField w) (levelField w) (versionField w) = w := by
  unfold formatP opField maskField levelField versionField
  rw [extract_append_extract (by decide), extract_append_extract (by decide), extract_append_extract (by decide),
    extract_append_extract (by decide)]
  exact extractLsb'_eq_self

theorem formatC_fields (w : CommandWord) :
    formatC (opField w) (w.extractLsb' 25 3) (pixField w) (rowField w) (colField w) = w := by
  unfold formatC opField pixField rowField colField
  rw [extract_append_extract (by decide), extract_append_extract (by decide), extract_append_extract (by decide),
    extract_append_extract (by decide)]
  exact extractLsb'_eq_self

theorem formatR_fields (w : CommandWord) : formatR (opField w) (w.extractLsb' 4 24) (regField w) = w := by
  unfold formatR opField regField
  rw [extract_append_extract (by decide), extract_append_extract (by decide)]
  exact extractLsb'_eq_self

/-- A word is the word of given fields if its fields are those. -/
theorem eq_formatP {op : BitVec 4} {zero : BitVec 15} {m : BitVec 3} {l : BitVec 2} {v : BitVec 8}
    (hop : (opField w).toNat = op.toNat) (hzero : w.extractLsb' 13 15 = zero) (hm : maskField w = m)
    (hl : levelField w = l) (hv : versionField w = v) : formatP op zero m l v = w := by
  rw [← eq_of_toNat_eq hop, ← hzero, ← hm, ← hl, ← hv, formatP_fields]

theorem eq_formatC {op : BitVec 4} {zero : BitVec 3} {p : Pixel} {row col : BitVec 8}
    (hop : (opField w).toNat = op.toNat) (hzero : w.extractLsb' 25 3 = zero) (hp : pixField w = p)
    (hrow : rowField w = row) (hcol : colField w = col) : formatC op zero p row col = w := by
  rw [← eq_of_toNat_eq hop, ← hzero, ← hp, ← hrow, ← hcol, formatC_fields]

theorem eq_formatR {op : BitVec 4} {zero : BitVec 24} {n : BitVec 4} (hop : (opField w).toNat = op.toNat)
    (hzero : w.extractLsb' 4 24 = zero) (hn : regField w = n) : formatR op zero n = w := by
  rw [← eq_of_toNat_eq hop, ← hzero, ← hn, formatR_fields]

/-! The encoder in terms of the formats, every unused field zero -/

@[simp] theorem encode_build (v : BitVec 8) (l : BitVec 2) (m : BitVec 3) : encode (.build v l m) = formatP 1 0 m l v := rfl

@[simp] theorem encode_geom (v : BitVec 8) : encode (.geom v) = formatP 2 0 0 0 v := rfl

@[simp] theorem encode_fmt (l : BitVec 2) (m : BitVec 3) : encode (.fmt l m) = formatP 3 0 m l 0 := rfl

@[simp] theorem encode_lvl (l : BitVec 2) : encode (.lvl l) = formatP 4 0 0 l 0 := rfl

@[simp] theorem encode_mask (m : BitVec 3) : encode (.mask m) = formatP 5 0 m 0 0 :=
  append_assoc' (x₁ := (5 : BitVec 4) ++ (0 : BitVec 15) ++ m) (x₂ := 0#2) (x₃ := 0#8)

@[simp] theorem encode_bchenc (l : BitVec 2) (m : BitVec 3) : encode (.bchenc l m) = formatP 6 0 m l 0 := rfl

@[simp] theorem encode_meval (i j : BitVec 8) : encode (.meval i j) = formatC 7 0 0 i j := rfl

@[simp] theorem encode_pxrd (r c : BitVec 8) : encode (.pxrd r c) = formatC 8 0 0 r c := rfl

@[simp] theorem encode_pxwr (r c : BitVec 8) (p : Pixel) : encode (.pxwr r c p) = formatC 9 0 p r c := rfl

@[simp] theorem encode_rdreg (n : BitVec 4) : encode (.rdreg n) = formatR 10 0 n := rfl

/-! The rows of the opcode map (30_encoding.md R96) -/

/-- A word that a row selects has the row's match in every field that the row's mask covers. -/
theorem extract_of_selects {rowMatch rowMask : CommandWord} (h : selects rowMatch rowMask w = true) {start len : Nat}
    (hcover : rowMask.extractLsb' start len = allOnes len) : w.extractLsb' start len = rowMatch.extractLsb' start len := by
  rw [← beq_iff_eq.mp h, extractLsb'_and, hcover, and_allOnes]

/-- No row selects a word of another opcode. -/
theorem selects_other_opcode {rowMatch rowMask : CommandWord} {op : BitVec 4} (hop : opField w = op)
    (hrow : opField rowMask = allOnes 4 ∧ op ≠ opField rowMatch) : selects rowMatch rowMask w = false := by
  rw [Bool.eq_false_iff]
  intro h
  exact hrow.2 (hop.symm.trans (extract_of_selects h hrow.1))

/-- Every encoding is selected by the row of its command. -/
theorem selects_encode : ∀ i, selects (Laws.opcodeRow i).1 (Laws.opcodeRow i).2 (encode i) = true
  | .build v l m => beq_iff_eq.mpr (Laws.RowMatch.build v l m)
  | .geom v => beq_iff_eq.mpr (Laws.RowMatch.geom v)
  | .fmt l m => beq_iff_eq.mpr (Laws.RowMatch.fmt l m)
  | .lvl l => beq_iff_eq.mpr (Laws.RowMatch.lvl l)
  | .mask m => beq_iff_eq.mpr (Laws.RowMatch.mask m)
  | .bchenc l m => beq_iff_eq.mpr (Laws.RowMatch.bchenc l m)
  | .meval i j => beq_iff_eq.mpr (Laws.RowMatch.meval i j)
  | .pxrd r c => beq_iff_eq.mpr (Laws.RowMatch.pxrd r c)
  | .pxwr r c p => beq_iff_eq.mpr (Laws.RowMatch.pxwr r c p)
  | .rdreg n => beq_iff_eq.mpr (Laws.RowMatch.rdreg n)

/-- Settles O7: no row of a smaller opcode selects the encoding, its own row does, and the fields are read back. -/
theorem decodeOfEncode : Obligations.DecodeOfEncode := by
  intro i hi
  have own := selects_encode i
  cases i <;> simp only [encode_build, encode_geom, encode_fmt, encode_lvl, encode_mask, encode_bchenc, encode_meval,
    encode_pxrd, encode_pxwr, encode_rdreg, Laws.opcodeRow] at own ⊢
  case build | geom | fmt | lvl | mask | bchenc =>
    simp (disch := decide) only [decode, own, selects_other_opcode (opField_formatP ..), versionField_formatP,
      levelField_formatP, maskField_formatP, if_true, Bool.false_eq_true, if_false]
  case meval | pxrd =>
    simp (disch := decide) only [decode, own, selects_other_opcode (opField_formatC ..), rowField_formatC,
      colField_formatC, if_true, Bool.false_eq_true, if_false]
  case pxwr r c p =>
    have legal : pixLegal p = true := hi
    simp (disch := decide) only [decode, own, selects_other_opcode (opField_formatC ..), rowField_formatC,
      colField_formatC, pixField_formatC, legal, if_true, Bool.false_eq_true, if_false]
  case rdreg n =>
    have readable : n.ult 14 = true := hi
    simp (disch := decide) only [decode, own, selects_other_opcode (opField_formatR ..), regField_formatR, readable,
      if_true, Bool.false_eq_true, if_false]

/-- A row of the decoder that answers a command either selects the word or leaves it to the rows below. -/
theorem row_eq_ok {selected : Bool} {here below : Except DecodeError Instr}
    (h : (if selected = true then here else below) = .ok i) : selected = true ∧ here = .ok i ∨ below = .ok i := by
  cases selected
  · exact .inr h
  · exact .inl ⟨rfl, h⟩

/-- The decoder accepts no illegal word: the row that selects a word fixes its must-be-zero fields (30_encoding.md R99). -/
theorem legal_of_decode_ok (h : decode w = .ok i) : illegalWord w = false := by
  unfold decode at h
  rcases row_eq_ok h with ⟨row, -⟩ | h
  · simp (disch := decide) [illegalWord, opField, extract_of_selects row]
  rcases row_eq_ok h with ⟨row, -⟩ | h
  · simp (disch := decide) [illegalWord, opField, maskField, levelField, extract_of_selects row]
  rcases row_eq_ok h with ⟨row, -⟩ | h
  · simp (disch := decide) [illegalWord, opField, versionField, extract_of_selects row]
  rcases row_eq_ok h with ⟨row, -⟩ | h
  · simp (disch := decide) [illegalWord, opField, maskField, versionField, extract_of_selects row]
  rcases row_eq_ok h with ⟨row, -⟩ | h
  · simp (disch := decide) [illegalWord, opField, levelField, versionField, extract_of_selects row]
  rcases row_eq_ok h with ⟨row, -⟩ | h
  · simp (disch := decide) [illegalWord, opField, versionField, extract_of_selects row]
  rcases row_eq_ok h with ⟨row, -⟩ | h
  · simp (disch := decide) [illegalWord, opField, pixField, extract_of_selects row]
  rcases row_eq_ok h with ⟨row, -⟩ | h
  · simp (disch := decide) [illegalWord, opField, pixField, extract_of_selects row]
  rcases row_eq_ok h with ⟨row, h⟩ | h
  · rcases row_eq_ok h with ⟨legal, -⟩ | h
    · have role : pixRole (pixField w) ≠ 7#3 := pixLegal_iff.mp legal
      simp (disch := decide) [illegalWord, opField, role, extract_of_selects row]
    · cases h
  rcases row_eq_ok h with ⟨row, h⟩ | h
  · rcases row_eq_ok h with ⟨readable, -⟩ | h
    · have index : (regField w).toNat < 14 := ult_iff_lt.mp readable
      simp (disch := decide) [illegalWord, opField, index, extract_of_selects row]
    · cases h
  · cases h

/-- A word that is not illegal is the encoding of a well-formed command (30_encoding.md R96, R99). -/
theorem exists_encode_of_legal (h : illegalWord w = false) : ∃ i, wellFormed i = true ∧ encode i = w := by
  unfold illegalWord at h
  split at h <;> simp only [Bool.or_eq_false_iff, bne_eq_false_iff_eq, beq_eq_false_iff_ne, decide_eq_false_iff_not,
    Bool.true_eq_false] at h
  next op => exact ⟨.build _ _ _, rfl, (encode_build ..).trans (eq_formatP op h rfl rfl rfl)⟩
  next op =>
    obtain ⟨⟨zero, mask⟩, level⟩ := h
    exact ⟨.geom _, rfl, (encode_geom _).trans (eq_formatP op zero mask level rfl)⟩
  next op =>
    obtain ⟨zero, version⟩ := h
    exact ⟨.fmt _ _, rfl, (encode_fmt ..).trans (eq_formatP op zero rfl rfl version)⟩
  next op =>
    obtain ⟨⟨zero, mask⟩, version⟩ := h
    exact ⟨.lvl _, rfl, (encode_lvl _).trans (eq_formatP op zero mask rfl version)⟩
  next op =>
    obtain ⟨⟨zero, level⟩, version⟩ := h
    exact ⟨.mask _, rfl, (encode_mask _).trans (eq_formatP op zero rfl level version)⟩
  next op =>
    obtain ⟨zero, version⟩ := h
    exact ⟨.bchenc _ _, rfl, (encode_bchenc ..).trans (eq_formatP op zero rfl rfl version)⟩
  next op =>
    obtain ⟨zero, pix⟩ := h
    exact ⟨.meval _ _, rfl, (encode_meval ..).trans (eq_formatC op zero pix rfl rfl)⟩
  next op =>
    obtain ⟨zero, pix⟩ := h
    exact ⟨.pxrd _ _, rfl, (encode_pxrd ..).trans (eq_formatC op zero pix rfl rfl)⟩
  next op =>
    obtain ⟨zero, role⟩ := h
    exact ⟨.pxwr _ _ _, pixLegal_iff.mpr role, (encode_pxwr ..).trans (eq_formatC op zero rfl rfl rfl)⟩
  next op =>
    obtain ⟨zero, index⟩ := h
    exact ⟨.rdreg _, ult_iff_lt.mpr (Nat.lt_of_not_le index), (encode_rdreg _).trans (eq_formatR op zero rfl)⟩

/-- The decoder answers exactly the well-formed commands, each for its encoding alone (30_encoding.md R100). -/
theorem decode_eq_ok_iff : decode w = .ok i ↔ wellFormed i = true ∧ encode i = w := by
  constructor
  · intro h
    obtain ⟨j, hj, rfl⟩ := exists_encode_of_legal (legal_of_decode_ok h)
    obtain rfl := Except.ok.inj ((decodeOfEncode j hj).symm.trans h)
    exact ⟨hj, rfl⟩
  · rintro ⟨hi, rfl⟩
    exact decodeOfEncode i hi

theorem decode_of_illegal (h : illegalWord w = true) : ∃ e, decode w = .error e := by
  cases hd : decode w with
  | error e => exact ⟨e, rfl⟩
  | ok i => exact absurd (legal_of_decode_ok hd) (by simp [h])

/-- Settles O8: an illegal word is refused; any other is the encoding of a command, and since the decoder gives the command
of an encoding back, of no other. -/
theorem everyWordIsOneCommandOrIllegal : Obligations.EveryWordIsOneCommandOrIllegal := by
  intro w
  cases hw : illegalWord w
  case true => exact .inl ⟨rfl, decode_of_illegal hw⟩
  case false =>
    obtain ⟨i, hi, he⟩ := exists_encode_of_legal hw
    have hd : decode w = .ok i := decode_eq_ok_iff.mpr ⟨hi, he⟩
    refine .inr ⟨rfl, i, hd, hi, he, fun j hj hje => ?_⟩
    exact Except.ok.inj ((decode_eq_ok_iff.mpr ⟨hj, hje⟩).symm.trans hd)

/-- Settles O6: each word is the encoding of its command. -/
theorem listedWordsDecode : Obligations.ListedWordsDecode :=
  ⟨decodeOfEncode (.build 40 3 7) rfl, decodeOfEncode (.geom 40) rfl, decodeOfEncode (.fmt 3 7) rfl,
    decodeOfEncode (.lvl 3) rfl, decodeOfEncode (.mask 7) rfl, decodeOfEncode (.bchenc 3 7) rfl,
    decodeOfEncode (.meval 255 255) rfl, decodeOfEncode (.pxrd 176 176) rfl, decodeOfEncode (.pxwr 20 20 0x1FB) rfl,
    decodeOfEncode (.rdreg 13) rfl⟩

/-- A pixel is the union of its shifted fields (30_encoding.md R84). -/
theorem pix_eq_union (role : Role) (b i : Bool) (o : BitVec 4) :
    pix role b i o = (BitVec.ofBool b).setWidth 9 ||| ((BitVec.ofBool i).setWidth 9 <<< 1) |||
      ((roleCode role).setWidth 9 <<< 2) ||| (o.setWidth 9 <<< 5) := by
  unfold pix
  generalize roleCode role = code
  revert code b i o
  decide

/-- Setting `black` is the union with 1 (30_encoding.md R84). -/
theorem pix_black_eq_or (role : Role) (b i : Bool) (o : BitVec 4) : pix role true i o = pix role b i o ||| 1 := by
  unfold pix
  generalize roleCode role = code
  revert code b i o
  decide

/-- Setting `invert` is the union with 2 (30_encoding.md R84). -/
theorem pix_invert_eq_or (role : Role) (b i : Bool) (o : BitVec 4) : pix role b true o = pix role b i o ||| 2 := by
  unfold pix
  generalize roleCode role = code
  revert code b i o
  decide

/-- Settles O10, from what each field of a constructed pixel reads and the three unions. -/
theorem pixelFieldsAreDisjoint : Obligations.PixelFieldsAreDisjoint :=
  fun role b i o => ⟨pix_eq_union role b i o, pixBlack_pix .., pixInvert_pix .., pixRole_pix .., pixOffset_pix ..,
    pix_black_eq_or role b i o, pix_invert_eq_or role b i o⟩

end Sys2Proof.Machine

/-! ### A command word run to its response (30_encoding.md R81, R97 to R99) -/

namespace Sys2Proof.Machine

variable {s t : State} {w : CommandWord} {i : Instr} {T : Tables}

theorem step_command {later : List HostMove} (h : s.host = .command w :: later) : step s = runCommand w (accept later s) := by
  rw [step, stepBy, h, runCommand]

theorem runCommand_ok (h : decode w = .ok i) : runCommand w s = exec i s := by
  rw [runCommand, runCommandBy, h]

theorem runCommand_error {e : DecodeError} (h : decode w = .error e) : runCommand w s = rejectCommand s := by
  rw [runCommand, runCommandBy, h]

/-- Settles O4: the decoder chooses between the command's meaning and the rejection of the word. -/
theorem stepRunsDecodedCommand : Obligations.StepRunsDecodedCommand := by
  intro s w later hs
  rw [step_command hs]
  refine ⟨fun i hd _ => runCommand_ok hd, fun e hd => ?_⟩
  rw [runCommand_error hd, rejectCommand_eq]
  rfl

/-- Settles O9: the decoder refuses an illegal word, and an unfaulted block answers a refused word with the fault. -/
theorem illegalWordFaults : Obligations.IllegalWordFaults := by
  refine ⟨by decide, by decide, fun s w h0 hw => ?_⟩
  obtain ⟨e, hd⟩ := decode_of_illegal hw
  rw [runCommand_error hd, rejectCommand_eq, if_pos h0]
  rfl

/-! What a command answers -/

/-- A register read fails on the two reserved indices alone (10_state.md R21). -/
theorem readReg_eq_none_iff {n : BitVec 4} : readReg n s = none ↔ 14 ≤ n.toNat := by
  unfold readReg
  split
  case h_15 => simp only [imp_false, true_iff] at *; omega
  all_goals simp only [reduceCtorEq, false_iff]; omega

/-- The three kinds of answer to a command, by status (30_encoding.md R98): it completes, its version is invalid, or it fails. -/
def Answers (i : Instr) (s t : State) : Prop :=
  (∃ d, t.rsp = some (responseWord .ok d)) ∧ (t.fcause = 0 ∨ ∃ n, i = .rdreg n) ∨
  t.rsp = some (responseWord .invalidVersion 0) ∧ t.fcause = 0 ∧
    (∃ v : BitVec 8, (v.toNat < 1 ∨ 40 < v.toNat) ∧ (i = .geom v ∨ ∃ l m, i = .build v l m)) ∨
  Fails s t ∧ ∀ n, i = .rdreg n → 14 ≤ n.toNat

theorem Answers.of_ok {u : State} {d : RegWord} (h : u.fcause = 0) : Answers i s (respond .ok d u) :=
  .inl ⟨⟨d, rfl⟩, .inl h⟩

theorem Answers.of_fails (h : Fails s t) (hi : ∀ n, i ≠ .rdreg n) : Answers i s t :=
  .inr (.inr ⟨h, fun n e => absurd e (hi n)⟩)

theorem Answers.of_invalidVersion {v : BitVec 8} (h : s.fcause = 0) (hv : ¬(1 ≤ v.toNat ∧ v.toNat ≤ 40))
    (hi : i = .geom v ∨ ∃ l m, i = .build v l m) : Answers i s (raiseInvalidVersion s) :=
  .inr (.inl ⟨rfl, h, v, by omega, hi⟩)

/-- Every command answers in one of the three ways. -/
theorem execWith_answers (h : execWith T i s = .next t) : Answers i s t := by
  cases i with
  | build v l m =>
    rcases execBuildWith_next h with hf | ⟨h0, ⟨hv, rfl⟩ | ⟨-, u, hu, rfl⟩⟩
    · exact .of_fails hf nofun
    · exact .of_invalidVersion h0 hv (.inr ⟨l, m, rfl⟩)
    · obtain ⟨-, rfl⟩ := runFormat_eq_next hu
      exact .of_ok h0
  | geom v =>
    rcases execGeomWith_next h with hf | ⟨h0, ⟨hv, rfl⟩ | ⟨-, rfl⟩⟩
    · exact .of_fails hf nofun
    · exact .of_invalidVersion h0 hv (.inl rfl)
    · exact .of_ok h0
  | fmt l m =>
    rcases execFmtWith_next h with hf | ⟨h0, -, -, rfl⟩
    · exact .of_fails hf nofun
    · exact .of_ok h0
  | lvl l =>
    rcases execLvl_next h with hf | ⟨h0, -, rfl⟩
    · exact .of_fails hf nofun
    · exact .of_ok h0
  | mask m =>
    rcases execMask_next h with hf | ⟨h0, -, rfl⟩
    · exact .of_fails hf nofun
    · exact .of_ok h0
  | bchenc l m =>
    rcases execBchenc_next h with hf | ⟨h0, rfl⟩
    · exact .of_fails hf nofun
    · exact .of_ok h0
  | meval r c =>
    rcases execMeval_next h with hf | ⟨h0, rfl⟩
    · exact .of_fails hf nofun
    · exact .of_ok h0
  | pxrd r c =>
    rcases execPxrd_next h with hf | ⟨h0, -, -, rfl⟩
    · exact .of_fails hf nofun
    · exact .of_ok h0
  | pxwr r c p =>
    rcases execPxwr_next h with hf | ⟨h0, -, -, -, rfl⟩
    · exact .of_fails hf nofun
    · exact .of_ok h0
  | rdreg n =>
    rcases execRdreg_next h with ⟨hn, hf⟩ | ⟨x, -, rfl⟩
    · exact .inr (.inr ⟨hf, fun k hk => by cases hk; exact readReg_eq_none_iff.mp hn⟩)
    · exact .inl ⟨⟨x, rfl⟩, .inr ⟨n, rfl⟩⟩

/-- A rejected word fails. -/
theorem rejectCommand_fails (h : rejectCommand s = .next t) : Fails s t :=
  (rejectCommand_next h).imp_right fun ⟨h0, ht⟩ => ⟨h0, _, ht⟩

/-- A command leaves a response (30_encoding.md R81). -/
theorem Answers.rsp_isSome (h : Answers i s t) : t.rsp.isSome = true := by
  rcases h with ⟨⟨d, h⟩, -⟩ | ⟨h, -⟩ | ⟨h, -⟩
  · rw [h]; rfl
  · rw [h]; rfl
  · obtain ⟨-, -, -, h⟩ := Fails_frame h
    rw [h]; rfl

/-- A failed command takes no move of the host. -/
theorem Fails_host (h : Fails s t) : t.host = s.host := by
  obtain ⟨e, -⟩ := Fails_frame h
  rw [e]

/-- No command takes a further move of the host. -/
theorem exec_host (h : exec i s = .next t) : t.host = s.host := by
  obtain ⟨-, -, -, -, -, -, -, -, -, -, -, -, host⟩ := onlyListedCommandsWrite i s t h
  exact host

/-- Settles O5, by the kinds of step: a command or a rejected word answers, idling and reset do not. -/
theorem stepTakesOneMove : Obligations.StepTakesOneMove := by
  intro s t h
  rcases stepBy_next h with ⟨hs, rfl⟩ | ⟨later, w, hs, rfl⟩ | ⟨w, later, i, hs, -, hx⟩ | ⟨w, later, e, hs, -, hx⟩
  · simp [hs]
  · rcases hs with hs | hs <;> simp [hs]
  · have host := exec_host hx
    rw [exec_eq_execWith] at hx
    simp [hs, host, (execWith_answers hx).rsp_isSome]
  · have failed := rejectCommand_fails hx
    obtain ⟨-, -, -, rsp⟩ := Fails_frame failed
    simp [hs, Fails_host failed, rsp]

/-! The form of a response word (30_encoding.md R97) -/

@[simp] theorem responseWord_status (st : Status) (d : RegWord) : (responseWord st d).extractLsb' 28 4 = statusCode st :=
  (BitVec.extractLsb'_append_eq_of_le (by decide)).trans BitVec.extractLsb'_append_eq_left

@[simp] theorem responseWord_zeros (st : Status) (d : RegWord) : (responseWord st d).extractLsb' 16 12 = 0 :=
  (BitVec.extractLsb'_append_eq_of_le (by decide)).trans BitVec.extractLsb'_append_eq_right

@[simp] theorem responseWord_data (st : Status) (d : RegWord) : (responseWord st d).extractLsb' 0 16 = d :=
  BitVec.extractLsb'_append_eq_right

/-- Settles O17: a decoded command answers in one of the three ways, a legal RDREG not by failing, and a rejected word fails. -/
theorem responseHasItsForm : Obligations.ResponseHasItsForm := by
  intro s t w later hs hx
  rw [step_command hs] at hx
  cases hd : decode w with
  | ok i =>
    rw [runCommand_ok hd, exec_eq_execWith] at hx
    rcases execWith_answers hx with ⟨⟨d, rsp⟩, live⟩ | ⟨rsp, live, version⟩ | ⟨failed, reserved⟩
    · refine ⟨_, rsp, responseWord_zeros .., .inl ⟨responseWord_status .., ?_⟩⟩
      simpa using live
    · refine ⟨_, rsp, responseWord_zeros .., .inr (.inl ⟨responseWord_status .., responseWord_data .., live, ?_⟩)⟩
      simpa using version
    · obtain ⟨-, faulted, -, rsp⟩ := Fails_frame failed
      refine ⟨_, rsp, responseWord_zeros .., .inr (.inr ⟨responseWord_status .., responseWord_data .., faulted, ?_⟩)⟩
      intro n hn
      obtain rfl := Except.ok.inj hn
      have index : n.toNat < 14 := BitVec.ult_iff_lt.mp (decode_eq_ok_iff.mp hd).1
      exact absurd (reserved n rfl) (by omega)
  | error e =>
    rw [runCommand_error hd] at hx
    obtain ⟨-, faulted, -, rsp⟩ := Fails_frame (rejectCommand_fails hx)
    exact ⟨_, rsp, responseWord_zeros .., .inr (.inr ⟨responseWord_status .., responseWord_data .., faulted, nofun⟩)⟩

end Sys2Proof.Machine

/-! ### The pattern stamper under the default alignment table, and the finder zones under any (40_geometry_stamper.md) -/

namespace Sys2Proof.Machine

variable {s : State} {table : AlignTable} {v r c : Nat}

theorem execGeom_valid {v : BitVec 8} (h : s.fcause = 0) (h1 : 1 ≤ v.toNat) (h40 : v.toNat ≤ 40) :
    exec (.geom v) s =
      .next (respond .ok (BitVec.ofNat 16 (planSize v.toNat)) (runGeometry Config.tables v s)) :=
  execGeomWith_valid h ⟨h1, h40⟩

/-- Settles O18: a valid version passes both checks of GEOM, and its SIZE fits in 8 bits. -/
theorem geomStartsPlan : Obligations.GeomStartsPlan :=
  fun s v h h1 h40 =>
    ⟨stampedGrid Config.alignTable v.toNat, execGeom_valid h h1 h40,
      runGeometry_size_toNat (s := s) (T := Config.tables) h40⟩

/-! The finder zones under any table -/

/-- The cell lies in one of the three 8 by 8 corner zones of a grid of side S (40_geometry_stamper.md R128). -/
def inCornerZone (S r c : Nat) : Prop := r ≤ 7 ∧ c ≤ 7 ∨ r ≤ 7 ∧ S - 8 ≤ c ∨ S - 8 ≤ r ∧ c ≤ 7

/-- Under any table no placed box covers a cell of a corner zone (40_geometry_stamper.md R128). -/
theorem not_boxCovers_cornerZone {q : Nat × Nat} (hq : q ∈ placedBoxes table v)
    (hz : inCornerZone (planSize v) r c) : ¬boxCovers r c q = true := by
  obtain ⟨-, -, topLeft, topRight, bottomLeft⟩ := placedBoxes_clear hq
  rw [boxCovers_iff]
  unfold inCornerZone at hz
  omega

/-- A cell that no placed box covers is left as the timing and position steps left it, under any table
(40_geometry_stamper.md R130 cases 2 to 5). -/
theorem gridRead_stampedGrid_uncovered (hv : 1 ≤ v) (hv' : v ≤ 40) (hr : r < planSize v) (hc : c < planSize v)
    (hn : ∀ q ∈ placedBoxes table v, ¬boxCovers r c q = true) :
    gridRead (stampedGrid table v) (cellKey r c) = closedBase (planSize v) r c := by
  have hS : 21 ≤ planSize v := by unfold planSize; omega
  have hS' : planSize v < 256 := by unfold planSize; omega
  rw [stampedGrid, gridRead_writes_append, gridRead_writes_of_forall_ne, gridRead_timing_position hS hS' hr hc]
  intro w hw hkey
  obtain ⟨q, hq, hcov, -⟩ := (mem_alignmentStep_cell hS' hc).mp (hkey ▸ hw : (cellKey r c, w.2) ∈ alignmentStep table v)
  exact hn q hq hcov

theorem gridRead_stampedGrid_cornerZone (hv : 1 ≤ v) (hv' : v ≤ 40) (hr : r < planSize v) (hc : c < planSize v)
    (hz : inCornerZone (planSize v) r c) :
    gridRead (stampedGrid table v) (cellKey r c) = closedBase (planSize v) r c :=
  gridRead_stampedGrid_uncovered hv hv' hr hc fun _ hq => not_boxCovers_cornerZone hq hz

/-- Settles O20: alignment boxes stay off the corner zones, so the closed form of the position step stands there. -/
theorem finderZonesStand : Obligations.FinderZonesStand := by
  intro table v h1 h40 dy dx hdy hdx
  have size : planSize v = 4 * v + 17 := rfl
  refine ⟨?topLeft, ?topRight, ?bottomLeft⟩
  case topLeft =>
    rw [gridRead_stampedGrid_cornerZone h1 h40 (by omega) (by omega) (.inl (by omega)), closedBase,
      if_pos (by omega)]
  case topRight =>
    rw [gridRead_stampedGrid_cornerZone h1 h40 (by omega) (by omega) (.inr (.inl (by omega))), closedBase,
      if_neg (by omega), if_pos (by omega), show planSize v - 4 = 4 * v + 13 by omega]
  case bottomLeft =>
    rw [gridRead_stampedGrid_cornerZone h1 h40 (by omega) (by omega) (.inr (.inr (by omega))), closedBase,
      if_neg (by omega), if_neg (by omega), if_pos (by omega), show planSize v - 4 = 4 * v + 13 by omega]

/-! The default alignment table -/

/-- Axis positions of the default table are at least 12 apart (40_geometry_stamper.md R129). -/
theorem axisPositions_default_spread (h40 : v ≤ 40) :
    (axisPositions Config.alignTable v).Pairwise (fun x y => x + 12 ≤ y) := by
  revert v; decide

/-- On the default table's axis only 4 is near the first edge and only S − 9 near the last (40_geometry_stamper.md R127). -/
theorem axisPositions_default_ends (h40 : v ≤ 40) :
    ∀ x ∈ axisPositions Config.alignTable v,
      (x ≤ 8 ↔ x = 4) ∧ (planSize v - 8 ≤ x + 4 ↔ x = planSize v - 9) := by
  revert v; decide

/-- Boxes over axis positions more than a box's width apart do not overlap (40_geometry_stamper.md R129). -/
theorem placedBoxes_apart (h : (axisPositions table v).Pairwise (fun x y => x + 4 < y)) :
    (placedBoxes table v).Pairwise boxesApart := by
  refine List.Pairwise.filter _ (List.pairwise_flatMap.mpr ⟨fun y _ => ?sameRow, h.imp fun {y y'} hy => ?otherRow⟩)
  case sameRow =>
    exact List.pairwise_map.mpr (h.imp fun hx => .inr (.inr (.inl hx)))
  case otherRow =>
    simp only [List.forall_mem_map]
    exact fun _ _ _ _ => .inl hy

theorem placedBoxes_default_apart (h40 : v ≤ 40) : (placedBoxes Config.alignTable v).Pairwise boxesApart :=
  placedBoxes_apart ((axisPositions_default_spread h40).imp fun h => by omega)

/-- The default table's candidates that are placed are all but three (40_geometry_stamper.md R128). -/
theorem mem_placedBoxes_default (h40 : v ≤ 40) {y x : Nat} (hy : y ∈ axisPositions Config.alignTable v)
    (hx : x ∈ axisPositions Config.alignTable v) :
    (y, x) ∈ placedBoxes Config.alignTable v ↔
      ¬((y, x) = (4, 4) ∨ (y, x) = (4, planSize v - 9) ∨ (y, x) = (planSize v - 9, 4)) := by
  obtain ⟨firstY, lastY⟩ := axisPositions_default_ends h40 y hy
  obtain ⟨firstX, lastX⟩ := axisPositions_default_ends h40 x hx
  have nearY : y ≤ 7 ↔ y = 4 := by omega
  have nearX : x ≤ 7 ↔ x = 4 := by omega
  simp [mem_placedBoxes, hy, hx, boxSkipped, nearY, nearX, lastY, lastX, and_assoc]

/-- Settles O23, from the spread and the ends of the default table's axes. -/
theorem placedBoxesNeverOverlap : Obligations.PlacedBoxesNeverOverlap :=
  fun _ _ h40 => ⟨placedBoxes_default_apart h40, fun _ hy _ hx => mem_placedBoxes_default h40 hy hx⟩

/-- Settles O22: the four walks run on the default table. -/
theorem alignmentPositionsAsListed : Obligations.AlignmentPositionsAsListed :=
  ⟨by decide, by decide, by decide, by decide, by decide, by decide, by decide, by decide⟩

/-! GEOM on the block with the default tables -/

/-- Settles O19: placed boxes do not overlap under the default table, so the stamped grid is the closed form. -/
theorem geomGridIsClosedForm : Obligations.GeomGridIsClosedForm := by
  intro s v h h1 h40
  refine ⟨_, execGeom_valid h h1 h40, fun r c hr hc => ?_, fun x hx => ?_⟩
  · exact gridRead_stampedGrid h1 h40 (placedBoxes_default_apart h40) hr hc
  · obtain ⟨role, b, r, c, -, hr, hc, rfl⟩ := mem_stampedGrid h1 hx
    have hS : planSize v.toNat < 256 := by unfold planSize; omega
    rw [patternWrite, keyRow_cellKey (by omega), keyCol_cellKey (by omega)]
    exact ⟨hr, hc⟩

/-- No cell of a stamped grid has a role beyond timing, an `invert` flag or an offset, under any table
(40_geometry_stamper.md R134). -/
theorem gridRead_stampedGrid_fields (hv : 1 ≤ v) (a : Nat) :
    (pixRole (gridRead (stampedGrid table v) a)).toNat ≤ 3 ∧ pixInvert (gridRead (stampedGrid table v) a) = false ∧
      pixOffset (gridRead (stampedGrid table v) a) = 0 := by
  rcases gridRead_stampedGrid_cases table hv a with e | ⟨role, b, hrole, e⟩
  · rw [e]; decide
  · rw [e, pixRole_pix, pixInvert_pix, pixOffset_pix]
    refine ⟨?_, rfl, rfl⟩
    rcases hrole with rfl | rfl | rfl <;> decide

/-- No box of the default table covers the cell (S − 8, 8): its column would be 4, beside the bottom-left zone
(40_geometry_stamper.md R134). -/
theorem not_boxCovers_darkModule (h40 : v ≤ 40) {q : Nat × Nat} (hq : q ∈ placedBoxes Config.alignTable v) :
    ¬boxCovers (planSize v - 8) 8 q = true := by
  obtain ⟨-, hx, -⟩ := mem_placedBoxes.mp hq
  obtain ⟨first, -⟩ := axisPositions_default_ends h40 q.2 hx
  obtain ⟨-, -, -, -, bottomLeft⟩ := placedBoxes_clear hq
  rw [boxCovers_iff]
  omega

/-- Settles O21: what any table can stamp, and that the default table leaves (S − 8, 8) as allocated. -/
theorem geomStampsNothingElse : Obligations.GeomStampsNothingElse := by
  intro s v h h1 h40
  have size : planSize v.toNat = 4 * v.toNat + 17 := rfl
  refine ⟨_, execGeom_valid h h1 h40, gridRead_stampedGrid_fields h1, ?darkModule⟩
  have row : 4 * v.toNat + 9 = planSize v.toNat - 8 := by omega
  have cleared : closedBase (planSize v.toNat) (planSize v.toNat - 8) 8 = 0x000 := by
    rw [closedBase, if_neg (by omega), if_neg (by omega), if_neg (by omega), if_neg (by omega), if_neg (by omega)]
    rfl
  rw [memRead, row, ← cleared]
  exact gridRead_stampedGrid_uncovered h1 h40 (by omega) (by omega) fun _ hq => not_boxCovers_darkModule h40 hq

end Sys2Proof.Machine

/-! ### The format encoder and writer, and the cells it needs free (41_format_bch.md) -/

namespace Sys2Proof.Machine

variable {s : State} {v r c S k : Nat}

/-! FMT on the block with the default format cells -/

/-- The thirty cells of the default table are distinct: path A stays in rows and columns up to 8, path B does not
(41_format_bch.md R158). -/
theorem formatCellsDistinct_default (hS : 21 ≤ S) (hS' : S < 256) : formatCellsDistinct Config.tables.cells S := by
  intro j hj k hk
  obtain ⟨rowA, colA⟩ := pathA_bounds hj
  obtain ⟨-, -, outB⟩ := pathB_bounds hk hS hS'
  have apart : pathA j ≠ pathB S k := fun e => by rw [← e] at outB; omega
  exact ⟨apart, fun hne => ⟨fun e => hne (pathA_inj hj hk e), fun e => hne (pathB_inj hS hj hk e)⟩⟩

/-- Settles O27: the default table's cells fit and are distinct in any grid of side at least 21, so it is a case of the
block with any tables. -/
theorem fmtWritesBothPaths : Obligations.FmtWritesBothPaths := by
  intro s l m h hstage hsize
  have fit : formatCellsFit Config.tables.cells s.size.toNat = true := formatCellsFit_default (by omega)
  exact fmtUnderAnyTables Config.tables s l m h hstage (formatCellsFit_iff.mp fit)
    (formatCellsDistinct_default hsize s.size.isLt)

/-! The fields of a format pixel -/

theorem pixRole_formatPixel (cw : BitVec 15) (k : Nat) : pixRole (formatPixel cw k) = 4 := pixRole_pix ..

theorem pixOffset_formatPixel (cw : BitVec 15) (k : Nat) : pixOffset (formatPixel cw k) = BitVec.ofNat 4 k := pixOffset_pix ..

theorem pixInvert_formatPixel (cw : BitVec 15) (k : Nat) :
    pixInvert (formatPixel cw k) = (0x5412 : BitVec 15).getLsbD k := pixInvert_pix ..

theorem pixBlack_formatPixel (cw : BitVec 15) (k : Nat) :
    pixBlack (formatPixel cw k) = (cw ^^^ 0x5412).getLsbD k :=
  (pixBlack_pix ..).trans (BitVec.getLsbD_xor ..).symm

/-- Flipping `invert` into `black` gives back the code word's bit (41_format_bch.md R155). -/
theorem pixBlack_xor_pixInvert_formatPixel (cw : BitVec 15) (k : Nat) :
    (pixBlack (formatPixel cw k) ^^ pixInvert (formatPixel cw k)) = cw.getLsbD k := by
  rw [pixBlack_formatPixel, pixInvert_formatPixel, BitVec.getLsbD_xor, Bool.xor_assoc, Bool.xor_self, Bool.xor_false]

/-- Settles O29: FMT leaves the pixel of bit k in both of its cells, and each flag is read off that pixel. -/
theorem formatFlagsCarryTheWord : Obligations.FormatFlagsCarryTheWord := by
  intro s t l m k h hstage hsize hk hx q hq
  have fit : formatCellsFit Config.tables.cells s.size.toNat = true := formatCellsFit_default (by omega)
  have post : t = respond .ok ((formatDrawn l m).setWidth 16) (formatPlan Config.tables l m s) :=
    (Host.Outcome.next.inj ((execFmtWith_valid h hstage fit).symm.trans hx)).symm
  have pixel : memRead t q.1 q.2 = formatPixel (formatCodeWord l m) k := by
    rw [post]
    exact gridRead_format_of_distinct s.size.isLt fit (formatCellsDistinct_default hsize s.size.isLt) hk _ hq
  have raw : t.fmtRaw = formatCodeWord l m := by rw [post]; rfl
  have drawn : t.fmtDrawn = formatCodeWord l m ^^^ 0x5412 := by rw [post]; rfl
  rw [pixel, raw, drawn]
  exact ⟨pixRole_formatPixel .., pixOffset_formatPixel .., pixInvert_formatPixel .., pixBlack_formatPixel ..,
    pixBlack_xor_pixInvert_formatPixel ..⟩

/-! The format cells of a stamped grid -/

/-- The cell lies in row 8 or column 8 beside a finder's corner zone, off the timing strips (41_format_bch.md R158). -/
def besideFinder (S r c : Nat) : Prop :=
  r = 8 ∧ (c ≤ 8 ∨ S - 8 ≤ c) ∧ c ≠ 6 ∨ c = 8 ∧ (r ≤ 8 ∨ S - 8 ≤ r) ∧ r ≠ 6

theorem pathA_besideFinder (hk : k < 15) : besideFinder S (pathA k).1 (pathA k).2 := by
  unfold besideFinder pathA
  split_ifs <;> dsimp only <;> omega

theorem pathB_besideFinder (hS : 21 ≤ S) (hk : k < 15) : besideFinder S (pathB S k).1 (pathB S k).2 := by
  unfold besideFinder pathB
  split_ifs <;> dsimp only <;> omega

/-- Neither the finders nor the timing strips reach the cells beside the corner zones (40_geometry_stamper.md R130). -/
theorem closedBase_besideFinder (hS : 21 ≤ S) (hb : besideFinder S r c) : closedBase S r c = 0x000 := by
  unfold besideFinder at hb
  rw [closedBase, if_neg (by omega), if_neg (by omega), if_neg (by omega), if_neg (by omega), if_neg (by omega)]
  rfl

/-- No box of the default table covers a cell beside a corner zone: near an edge its least row or column is 4, so such a box
would reach into the zone (40_geometry_stamper.md R127, R128). -/
theorem not_boxCovers_besideFinder (h40 : v ≤ 40) (hb : besideFinder (planSize v) r c) {q : Nat × Nat}
    (hq : q ∈ placedBoxes Config.alignTable v) : ¬boxCovers r c q = true := by
  obtain ⟨hy, hx, -⟩ := mem_placedBoxes.mp hq
  obtain ⟨firstY, -⟩ := axisPositions_default_ends h40 q.1 hy
  obtain ⟨firstX, -⟩ := axisPositions_default_ends h40 q.2 hx
  obtain ⟨-, -, topLeft, topRight, bottomLeft⟩ := placedBoxes_clear hq
  unfold besideFinder at hb
  rw [boxCovers_iff]
  omega

theorem gridRead_stampedGrid_besideFinder (hv : 1 ≤ v) (h40 : v ≤ 40) (hr : r < planSize v) (hc : c < planSize v)
    (hb : besideFinder (planSize v) r c) : gridRead (stampedGrid Config.alignTable v) (cellKey r c) = 0x000 :=
  (gridRead_stampedGrid_uncovered hv h40 hr hc fun _ hq => not_boxCovers_besideFinder h40 hb hq).trans
    (closedBase_besideFinder (by unfold planSize; omega) hb)

/-- Settles O30: both paths run beside the finders' corner zones, where no step of the stamper writes. -/
theorem formatCellsAreFreeAfterGeom : Obligations.FormatCellsAreFreeAfterGeom := by
  intro s v k h h1 h40 hk
  have size : planSize v.toNat = 4 * v.toNat + 17 := rfl
  obtain ⟨rowA, colA⟩ := pathA_bounds hk
  obtain ⟨rowB, colB, -⟩ := pathB_bounds (S := planSize v.toNat) hk (by omega) (by omega)
  exact ⟨_, execGeom_valid h h1 h40,
    gridRead_stampedGrid_besideFinder h1 h40 (by omega) (by omega) (pathA_besideFinder hk),
    gridRead_stampedGrid_besideFinder h1 h40 rowB colB (pathB_besideFinder (by omega) hk)⟩

/-! The BCH code (41_format_bch.md R152 to R154) -/

/-- A code word is its information bits above its remainder. -/
theorem bchCodeWord_eq_append (d : BitVec 5) : bchCodeWord d = d ++ bchRemainder d := by
  revert d; decide

/-- The division leaves nothing above the remainder (41_format_bch.md R152). -/
theorem bchDivide_formatField (d : BitVec 5) : bchDivide (formatField d) = (bchRemainder d).setWidth 15 := by
  revert d; decide

/-- A step of the division is linear: whether the generator is flipped in is decided by one bit. -/
theorem bchStep_xor (a b : BitVec 15) (i : Nat) : bchStep (a ^^^ b) i = bchStep a i ^^^ bchStep b i := by
  unfold bchStep
  rw [BitVec.getLsbD_xor]
  generalize Config.bchGenerator <<< (i - 10) = g
  cases a.getLsbD i <;> cases b.getLsbD i
  case false.false => rfl
  case false.true => exact BitVec.xor_assoc ..
  case true.false =>
    change a ^^^ b ^^^ g = a ^^^ g ^^^ b
    ac_rfl
  case true.true =>
    calc
      a ^^^ b = a ^^^ b ^^^ (g ^^^ g) := by rw [BitVec.xor_self, BitVec.xor_zero]
      _ = a ^^^ g ^^^ (b ^^^ g) := by ac_rfl

theorem bchDivide_xor (a b : BitVec 15) : bchDivide (a ^^^ b) = bchDivide a ^^^ bchDivide b := by
  simp only [bchDivide, List.foldl, bchStep_xor]

/-- A word below bit 10 is its own remainder. -/
theorem bchDivide_setWidth (r : BitVec 10) : bchDivide (r.setWidth 15) = r.setWidth 15 := by
  simp [bchDivide, bchStep]

theorem formatField_xor (a b : BitVec 5) : formatField (a ^^^ b) = formatField a ^^^ formatField b := by
  simp [formatField, BitVec.shiftLeft_xor_distrib]

theorem bchRemainder_xor (a b : BitVec 5) : bchRemainder (a ^^^ b) = bchRemainder a ^^^ bchRemainder b := by
  rw [bchRemainder, formatField_xor, bchDivide_xor, BitVec.extractLsb'_xor]
  rfl

theorem bchCodeWord_eq_xor (d : BitVec 5) : bchCodeWord d = formatField d ^^^ (bchRemainder d).setWidth 15 := by
  revert d; decide

/-- The generator divides a code word: its information bits and its remainder divide to the same word (41_format_bch.md R153). -/
theorem bchDivide_bchCodeWord (d : BitVec 5) : bchDivide (bchCodeWord d) = 0 := by
  rw [bchCodeWord_eq_xor, bchDivide_xor, bchDivide_formatField, bchDivide_setWidth, BitVec.xor_self]
  rfl

/-- The code is linear (41_format_bch.md R154). -/
theorem bchCodeWord_xor (a b : BitVec 5) : bchCodeWord (a ^^^ b) = bchCodeWord a ^^^ bchCodeWord b := by
  rw [bchCodeWord_eq_append, bchRemainder_xor, ← BitVec.xor_append, ← bchCodeWord_eq_append, ← bchCodeWord_eq_append]

/-- Settles O24: the code word's two parts are read back, and dividing it leaves 0. -/
theorem codeWordIsMultipleOfGenerator : Obligations.CodeWordIsMultipleOfGenerator := by
  refine fun d => ⟨?_, ?_, rfl, bchDivide_bchCodeWord d⟩
  · rw [bchCodeWord_eq_append]
    exact BitVec.extractLsb'_append_eq_left
  · rw [bchCodeWord_eq_append]
    exact BitVec.extractLsb'_append_eq_right

/-- Settles O25: the sums and the weights over the 32 information values, the linearity from that of the division. -/
theorem remainderIsTheCircuit : Obligations.RemainderIsTheCircuit :=
  ⟨by decide, by decide, by decide, by decide, by decide, by decide, by decide, by decide, by decide, by decide,
    by decide, by decide, bchCodeWord_xor, by decide⟩

/-! BCHENC -/

theorem execBchenc_valid (h : s.fcause = 0) (l : BitVec 2) (m : BitVec 3) :
    exec (.bchenc l m) s = .next (respond .ok ((formatDrawn l m).setWidth 16) (recordFormat l m s)) :=
  unlessFaulted_live h

/-- Settles O26: BCHENC records the encoder's two words, which are those 41_format_bch.md R156 lists. -/
theorem bchencRecordsListedWords : Obligations.BchencRecordsListedWords := by
  intro s l m h
  rw [← formatCodeWord_eq_listedCode, ← formatDrawn_eq_listedDrawn]
  exact execBchenc_valid h l m

end Sys2Proof.Machine

/-! ### The mask evaluator and applicator (42_mask_evaluator.md) -/

namespace Sys2Proof.Machine

variable {s : State} {m : BitVec 3} {i i' j j' : Nat}

/-! The cells MASK writes (42_mask_evaluator.md R191, R193) -/

theorem pixIsPayload_iff {p : Pixel} : pixIsPayload p = true ↔ pixRole p = 5 ∨ pixRole p = 6 := by
  simp [pixIsPayload, roleCode]

theorem pixIsPayload_eq_false_iff {p : Pixel} : pixIsPayload p = false ↔ pixRole p ≠ 5 ∧ pixRole p ≠ 6 := by
  rw [← Bool.not_eq_true, pixIsPayload_iff, not_or]

/-- What MASK leaves at an address, in one condition: a payload cell of the square has `invert` assigned, any other is as before. -/
theorem gridRead_mask_eq_ite (m : BitVec 3) (S : Nat) (g : Grid) (a : Nat) :
    gridRead (maskGrid m S g) a =
      if keyRow a < S ∧ keyCol a < S ∧ (pixRole (gridRead g a) = 5 ∨ pixRole (gridRead g a) = 6) then
        pixAssignInvert (gridRead g a) (maskFormula m (keyRow a) (keyCol a))
      else gridRead g a := by
  rw [gridRead_mask, maskPixel, ← ite_and]
  simp only [inSquare_iff, pixIsPayload_iff, and_assoc]

/-- Settles O33, from what the mask applicator leaves at each address. -/
theorem maskAssignsInvert : Obligations.MaskAssignsInvert :=
  fun s m h hstage => ⟨_, execMask_valid h hstage, gridRead_mask_eq_ite m s.size.toNat s.grid⟩

/-- Settles O34: without a data or check cell the applicator returns the grid it was given. -/
theorem maskWithoutPayloadKeepsGrid : Obligations.MaskWithoutPayloadKeepsGrid := by
  intro s m h hstage hnone
  have kept : maskGrid m s.size.toNat s.grid = s.grid :=
    maskGrid_eq_self (fun x hx => pixIsPayload_eq_false_iff.mpr (hnone x hx)) m s.size.toNat
  calc
    exec (.mask m) s = .next (respond .ok 0 (runMask m s)) := execMask_valid h hstage
    _ = .next { s with maskId := m, stage := 4, rsp := some (responseWord .ok 0) } := by rw [runMask, kept]; rfl

/-- The applicator's result at an address depends on the grid's reads alone (42_mask_evaluator.md R193). -/
theorem gridRead_mask_congr {g g' : Grid} (hg : ∀ a, gridRead g a = gridRead g' a) (m : BitVec 3) (S a : Nat) :
    gridRead (maskGrid m S g) a = gridRead (maskGrid m S g') a := by
  rw [gridRead_mask, gridRead_mask, hg]

/-- Settles O35: the applicator reads SIZE, the mask id and the cells, and these agree. -/
theorem maskIsDeterministic : Obligations.MaskIsDeterministic := by
  intro s s' m h h' hstage hstage' hsize hg
  refine ⟨_, _, execMask_valid h hstage, execMask_valid h' hstage', rfl, rfl, ?_⟩
  simp only [respond_grid, runMask_grid, hsize]
  exact gridRead_mask_congr hg m s'.size.toNat

/-! MEVAL (42_mask_evaluator.md R190) -/

theorem execMeval_valid (h : s.fcause = 0) (i j : BitVec 8) :
    execMeval i j s =
      .next (respond .ok ((maskVector i.toNat j.toNat).setWidth 16) { s with mvec := maskVector i.toNat j.toNat }) :=
  unlessFaulted_live h

/-- Bit k of the vector is formula k (42_mask_evaluator.md R190). -/
theorem getLsbD_maskVector (k : BitVec 3) (i j : Nat) : (maskVector i j).getLsbD k.toNat = maskFormula k i j := by
  rw [maskVector, maskFormula, BitVec.toNat]
  split
  all_goals
    next index =>
      rw [index]
      simp only [BitVec.getLsbD_append, BitVec.getLsbD_ofBool]
      rfl

/-- Settles O31: each bit of the recorded vector is one formula, which tests an arithmetic expression for 0. -/
theorem mevalEvaluatesAllFormulas : Obligations.MevalEvaluatesAllFormulas := by
  intro s i j h
  have bit (k : BitVec 3) : (maskVector i.toNat j.toNat).getLsbD k.toNat = true ↔ maskFormula k i.toNat j.toNat = true :=
    (getLsbD_maskVector k i.toNat j.toNat).congr_left
  exact ⟨_, execMeval_valid h i j, (bit 0).trans beq_iff_eq, (bit 1).trans beq_iff_eq, (bit 2).trans beq_iff_eq,
    (bit 3).trans beq_iff_eq, (bit 4).trans beq_iff_eq, (bit 5).trans beq_iff_eq, (bit 6).trans beq_iff_eq,
    (bit 7).trans beq_iff_eq⟩

/-! The circuit forms: a formula's parity tests as gates on lowest bits (42_mask_evaluator.md R189) -/

/-- The lowest bit of a word is the parity of its number. -/
theorem getLsbD_zero_eq_bodd {w : Nat} (x : BitVec w) : x.getLsbD 0 = x.toNat.bodd := by
  rw [← BitVec.testBit_toNat]
  rfl

theorem getLsbD_one_eq_bodd {w : Nat} (x : BitVec w) : x.getLsbD 1 = (x.toNat / 2).bodd := by
  rw [← BitVec.testBit_toNat, Nat.testBit_add_one]
  rfl

theorem getLsbD_ofNat_zero_eq_bodd (w n : Nat) : (BitVec.ofNat (w + 1) n).getLsbD 0 = n.bodd := by
  rw [BitVec.getLsbD_ofNat, decide_eq_true w.succ_pos, Bool.true_and]
  rfl

/-- A formula that tests a parity is an inverted lowest bit. -/
theorem mod_two_beq_zero (n : Nat) : (n % 2 == 0) = !n.bodd := by
  rw [Nat.mod_two_of_bodd]
  cases n.bodd <;> rfl

theorem bodd_mod_two (n : Nat) : (n % 2).bodd = n.bodd := by
  rw [Nat.mod_two_of_bodd]
  cases n.bodd <;> rfl

theorem mask0_circuit (i j : Nat) : mask0 i j = !(i.bodd ^^ j.bodd) := by
  rw [mask0, mod_two_beq_zero, Nat.bodd_add]

theorem mask1_circuit (i j : Nat) : mask1 i j = !i.bodd := mod_two_beq_zero i

theorem mask3_circuit (i j : Nat) : mask3 i j = ((i % 3 + j % 3) % 3 == 0) := by
  rw [mask3, Nat.add_mod]

theorem mask4_circuit (i j : Nat) : mask4 i j = !((i / 2).bodd ^^ (j / 3).bodd) := by
  rw [mask4, mod_two_beq_zero, Nat.bodd_add]

theorem mask5_circuit (i j : Nat) : mask5 i j = (!(i.bodd && j.bodd) && i * j % 3 == 0) := by
  rw [← Nat.bodd_mul, ← mod_two_beq_zero, mask5, Bool.eq_iff_iff]
  simp only [Bool.and_eq_true, beq_iff_eq, Nat.add_eq_zero_iff]

theorem mask6_circuit (i j : Nat) : mask6 i j = !((i.bodd && j.bodd) ^^ (i * j % 3).bodd) := by
  rw [mask6, mod_two_beq_zero, Nat.bodd_add, bodd_mod_two, Nat.bodd_mul]

theorem mask7_circuit (i j : Nat) : mask7 i j = !((i * j % 3).bodd ^^ i.bodd ^^ j.bodd) := by
  rw [mask7, mod_two_beq_zero, Nat.bodd_add, bodd_mod_two, Nat.bodd_add, Bool.xor_assoc]

/-- The two bits of the circuit's product modulo 3 hold that remainder. -/
theorem ofNat_mod_three_beq_zero (n : Nat) : (BitVec.ofNat 2 (n % 3) == 0) = (n % 3 == 0) := by
  have : n % 3 < 3 := Nat.mod_lt n (by decide)
  generalize n % 3 = r at this ⊢
  interval_cases r <;> rfl

/-! The remainder by 3 from the bits (42_mask_evaluator.md R189) -/

/-- The alternating sum of the lowest bits, so many of them, bit 0 counted positive. -/
def alternatingBits : Nat → Nat → Int
  | 0, _ => 0
  | k + 1, n => (n.testBit 0).toNat - alternatingBits k (n / 2)

/-- 2 is −1 modulo 3, so each halving changes the sign of what remains. -/
theorem mod_three_eq_alternatingBits (k : Nat) {n : Nat} (h : n < 2 ^ k) : (n : Int) % 3 = alternatingBits k n % 3 := by
  induction k generalizing n with
  | zero => simp [alternatingBits, Nat.lt_one_iff.mp h]
  | succ k ih =>
    have half := ih (n := n / 2) (by rw [pow_succ] at h; omega)
    have low : (n.testBit 0).toNat = n % 2 := (Nat.mod_two_of_bodd n).symm
    rw [alternatingBits, low]
    omega

theorem toNat_mod_three_eq_alternating_sum (n : BitVec 8) :
    ((n.toNat % 3 : Nat) : Int) =
      ((n.getLsbD 0).toNat - (n.getLsbD 1).toNat + (n.getLsbD 2).toNat - (n.getLsbD 3).toNat + (n.getLsbD 4).toNat -
        (n.getLsbD 5).toNat + (n.getLsbD 6).toNat - (n.getLsbD 7).toNat : Int) % 3 := by
  have h := mod_three_eq_alternatingBits 8 n.isLt
  simp only [alternatingBits, Nat.testBit_div_two, BitVec.testBit_toNat, Nat.reduceAdd] at h
  omega

/-! The periods (42_mask_evaluator.md R189) -/

/-- Mask 4 sees the row through half of it and the column through a third of it, each modulo 2. -/
theorem mask4_congr (hi : i ≡ i' [MOD 4]) (hj : j ≡ j' [MOD 6]) : mask4 i j = mask4 i' j' := by
  have : (i / 2 + j / 3) % 2 = (i' / 2 + j' / 3) % 2 := by
    unfold Nat.ModEq at hi hj
    omega
  rw [mask4, mask4, this]

/-- Every formula but mask 4 is made of remainders by 2 and by 3 of the row, the column, their sum and their product. -/
theorem maskFormula_congr (hm : m ≠ 4) (hi : i ≡ i' [MOD 6]) (hj : j ≡ j' [MOD 6]) :
    maskFormula m i j = maskFormula m i' j' := by
  have row2 : i ≡ i' [MOD 2] := hi.of_dvd (by decide)
  have row3 : i ≡ i' [MOD 3] := hi.of_dvd (by decide)
  have col2 : j ≡ j' [MOD 2] := hj.of_dvd (by decide)
  have col3 : j ≡ j' [MOD 3] := hj.of_dvd (by decide)
  have sum2 : (i + j) % 2 = (i' + j') % 2 := row2.add col2
  have sum3 : (i + j) % 3 = (i' + j') % 3 := row3.add col3
  have product2 : i * j % 2 = i' * j' % 2 := row2.mul col2
  have product3 : i * j % 3 = i' * j' % 3 := row3.mul col3
  unfold maskFormula
  split
  · rw [mask0, mask0, sum2]
  · rw [mask1, mask1, row2]
  · rw [mask2, mask2, col3]
  · rw [mask3, mask3, sum3]
  · next hm4 => exact absurd (BitVec.toFin_inj.mp hm4) hm
  · rw [mask5, mask5, product2, product3]
  · rw [mask6, mask6, product2, product3]
  · rw [mask7, mask7, product3, sum2]

/-- All formulas repeat after a multiple of 12 rows and of 6 columns. -/
theorem maskFormula_congr_twelve (m : BitVec 3) (hi : i ≡ i' [MOD 12]) (hj : j ≡ j' [MOD 6]) :
    maskFormula m i j = maskFormula m i' j' := by
  by_cases hm : m = 4
  · subst hm
    exact mask4_congr (hi.of_dvd (by decide)) hj
  · exact maskFormula_congr hm (hi.of_dvd (by decide)) hj

/-- Settles O32: the circuits from the parities of sums and products, the remainder from the bits' alternating sum, the periods
from the congruences of the formulas. -/
theorem maskCircuitsEqualFormulas : Obligations.MaskCircuitsEqualFormulas := by
  refine ⟨fun i j => ?_, toNat_mod_three_eq_alternating_sum, fun m i j => ⟨?_, fun hm => ?_, ?_, ?_, ?_⟩⟩
  · intro a b ri rj p2 p3 q
    have row : a = i.toNat.bodd := getLsbD_zero_eq_bodd i
    have col : b = j.toNat.bodd := getLsbD_zero_eq_bodd j
    have remainder : ri * rj % 3 = i.toNat * j.toNat % 3 := (Nat.mul_mod ..).symm
    have parity : p2 = (i.toNat.bodd && j.toNat.bodd) := by rw [← row, ← col]
    have third : p3 = BitVec.ofNat 2 (i.toNat * j.toNat % 3) := congrArg (BitVec.ofNat 2) remainder
    have quotient : q.getLsbD 0 = (j.toNat / 3).bodd := getLsbD_ofNat_zero_eq_bodd 7 _
    rw [row, col, parity, third, quotient, getLsbD_one_eq_bodd, getLsbD_ofNat_zero_eq_bodd, ofNat_mod_three_beq_zero,
      ← Nat.bodd_mul, ← Nat.mod_two_of_bodd, Nat.bodd_mul]
    exact ⟨rfl, remainder, mask0_circuit .., mask1_circuit _ j.toNat, rfl, mask3_circuit .., mask4_circuit .., mask5_circuit ..,
      mask6_circuit .., mask7_circuit ..⟩
  · exact maskFormula_congr_twelve m rfl (Nat.add_mod_right j 6)
  · exact maskFormula_congr hm (Nat.add_mod_right i 6) rfl
  · exact mask4_congr (Nat.add_mod_right i 4) rfl
  · exact maskFormula_congr_twelve m (Nat.add_mod_right i 12) rfl
  · exact maskFormula_congr_twelve m rfl (Nat.ModEq.of_dvd (by decide) (Nat.add_mod_right j 12))

end Sys2Proof.Machine

/-! ### The plan sequencer and the access commands (43_plan_sequencer_and_access.md) -/

namespace Sys2Proof.Machine

variable {s t : State} {T : Tables} {l : BitVec 2} {m : BitVec 3}

/-! BUILD and its stages (R203, R204) -/

/-- SIZE, zero-extended, is the side of the grid (40_geometry_stamper.md R120). -/
theorem runGeometry_size_setWidth {v : BitVec 8} (h40 : v.toNat ≤ 40) :
    (runGeometry T v s).size.setWidth 16 = BitVec.ofNat 16 (planSize v.toNat) := by
  rw [← BitVec.ofNat_toNat, runGeometry_size_toNat h40]

/-- BUILD of a valid version on the block with the default tables, stage by stage. -/
theorem execBuild_valid {v : BitVec 8} (h : s.fcause = 0) (h1 : 1 ≤ v.toNat) (h40 : v.toNat ≤ 40) :
    exec (.build v l m) s = .next (respond .ok (BitVec.ofNat 16 (planSize v.toNat))
      { runMask m (runLevel l (formatPlan Config.tables l m (runGeometry Config.tables v s))) with err := 0 }) := by
  rw [← runGeometry_size_setWidth (s := s) (T := Config.tables) h40]
  exact execBuildWith_valid h ⟨h1, h40⟩ formatCellsFit_planSize

/-- Settles O37: the four stages write the listed registers, with the encoder's words in the table of 41_format_bch.md R156. -/
theorem buildCompletesPlan : Obligations.BuildCompletesPlan := by
  intro s v l m h h1 h40
  rw [← formatCodeWord_eq_listedCode, ← formatDrawn_eq_listedDrawn]
  exact ⟨_, execBuild_valid h h1 h40⟩

/-- An invalid version stops BUILD before its first stage, as it stops GEOM (R204). -/
theorem execBuildWith_eq_execGeomWith {v : BitVec 8} (hv : ¬(1 ≤ v.toNat ∧ v.toNat ≤ 40)) :
    execBuildWith T v l m s = execGeomWith T v s := by
  rw [execBuildWith, execGeomWith, requireVersion_fail hv, requireVersion_fail hv]

/-- Settles O38: a valid version by the stages of BUILD, an invalid one by the check that GEOM and BUILD share. -/
theorem buildEqualsItsStages : Obligations.BuildEqualsItsStages := by
  refine fun s v l m h => ⟨fun h1 h40 => ?valid, fun hv => ?invalid⟩
  case valid =>
    obtain ⟨t, a, b, c, d, build, geom, fmt, lvl, mask, same, -⟩ :=
      execBuildWith_stages l m h ⟨h1, h40⟩ formatCellsFit_planSize
    exact ⟨t, a, b, c, d, build, geom, fmt, lvl, mask, same⟩
  case invalid => exact execBuildWith_eq_execGeomWith (by omega)

/-! What the stages leave of the roles in the grid (R203, R210) -/

/-- The format writer leaves a cell as it was or gives it the format role, under any table. -/
theorem gridRead_format_cases (cells : FormatCells) (S : Nat) (cw : BitVec 15) (g : Grid) (a : Nat) :
    pixRole (gridRead (gridWrites (formatWrites cells S cw) g) a) = 4 ∨
      gridRead (gridWrites (formatWrites cells S cw) g) a = gridRead g a := by
  rcases gridRead_writes_mem (formatWrites cells S cw) g a with hw | ⟨-, kept⟩
  · obtain ⟨k, -, write⟩ := mem_formatWrites.mp hw
    have pixel : gridRead (gridWrites (formatWrites cells S cw) g) a = formatPixel cw k :=
      write.elim (congrArg Prod.snd) (congrArg Prod.snd)
    exact .inl (by rw [pixel, pixRole_formatPixel])
  · exact .inr kept

/-- The format writer makes no payload cell. -/
theorem payload_of_payload_after_format {cells : FormatCells} {S : Nat} {cw : BitVec 15} {g : Grid} {a : Nat}
    (h : pixIsPayload (gridRead (gridWrites (formatWrites cells S cw) g) a) = true) :
    pixIsPayload (gridRead g a) = true := by
  rcases gridRead_format_cases cells S cw g a with role | kept
  · rw [pixIsPayload_iff, role] at h
    exact absurd h (by decide)
  · rwa [kept] at h

/-- The mask applicator keeps which cells are payload. -/
theorem pixIsPayload_gridRead_mask (m : BitVec 3) (S : Nat) (g : Grid) (a : Nat) :
    pixIsPayload (gridRead (maskGrid m S g) a) = pixIsPayload (gridRead g a) := by
  rw [gridRead_mask]
  split
  · exact pixIsPayload_maskPixel ..
  · rfl

/-- The mask applicator leaves a cell without payload alone (42_mask_evaluator.md R191). -/
theorem gridRead_mask_of_not_payload {S : Nat} {g : Grid} {a : Nat} (h : pixIsPayload (gridRead g a) = false) :
    gridRead (maskGrid m S g) a = gridRead g a := by
  rw [gridRead_mask, maskPixel, h]
  exact ite_self _

/-- Formatting a stamped grid makes no payload cell, under any tables. -/
theorem formatted_stampedGrid_no_payload {v : Nat} (hv : 1 ≤ v) (S : Nat) (cw : BitVec 15) (a : Nat) :
    pixIsPayload (gridRead (gridWrites (formatWrites T.cells S cw) (stampedGrid T.align v)) a) = false := by
  rw [← Bool.not_eq_true]
  intro h
  exact absurd (payload_of_payload_after_format h) (by simp [stampedGrid_no_payload T.align hv])

/-- BUILD's mask stage finds no payload, so BUILD's grid reads as the formatted grid of its version, under any tables. -/
theorem gridRead_build {v : BitVec 8} (h1 : 1 ≤ v.toNat) (h40 : v.toNat ≤ 40) (a : Nat) :
    gridRead (runMask m (runLevel l (formatPlan T l m (runGeometry T v s)))).grid a =
      gridRead (gridWrites (formatWrites T.cells (planSize v.toNat) (formatCodeWord l m)) (stampedGrid T.align v.toNat)) a := by
  have grid : (formatPlan T l m (runGeometry T v s)).grid =
      gridWrites (formatWrites T.cells (planSize v.toNat) (formatCodeWord l m)) (stampedGrid T.align v.toNat) := by
    rw [formatPlan_grid, runGeometry_size_toNat h40, runGeometry_grid]
  rw [runMask_grid, runLevel_grid, grid]
  exact gridRead_mask_of_not_payload (formatted_stampedGrid_no_payload h1 ..)

/-- The default format cells lie where the stamper left 0x000, so the format writer keeps every stamped cell
(41_format_bch.md R158, 10_state.md R38 (3)). -/
theorem gridRead_format_stampedGrid_of_role {v a : Nat} (h1 : 1 ≤ v) (h40 : v ≤ 40) (cw : BitVec 15)
    (hrole : pixRole (gridRead (stampedGrid Config.alignTable v) a) ≠ 0) :
    gridRead (gridWrites (formatWrites Config.formatCells (planSize v) cw) (stampedGrid Config.alignTable v)) a =
      gridRead (stampedGrid Config.alignTable v) a := by
  have size : planSize v = 4 * v + 17 := rfl
  refine gridRead_format_other (fun k hk => ⟨fun onA => hrole ?_, fun onB => hrole ?_⟩) _
  · obtain ⟨row, col⟩ := pathA_bounds hk
    rw [onA]
    exact congrArg pixRole
      (gridRead_stampedGrid_besideFinder h1 h40 (by omega) (by omega) (pathA_besideFinder hk))
  · obtain ⟨row, col, -⟩ := pathB_bounds (S := planSize v) hk (by omega) (by omega)
    rw [onB]
    exact congrArg pixRole (gridRead_stampedGrid_besideFinder h1 h40 row col (pathB_besideFinder (by omega) hk))

/-- Settles O40: BUILD's grid reads as GEOM's with the format cells written, and these were free. -/
theorem buildKeepsGeometry : Obligations.BuildKeepsGeometry := by
  intro s v l m h h1 h40
  obtain ⟨t, build, reads⟩ : ∃ t, exec (.build v l m) s = .next t ∧ ∀ a, gridRead t.grid a =
      gridRead (gridWrites (formatWrites Config.formatCells (planSize v.toNat) (formatCodeWord l m))
        (stampedGrid Config.alignTable v.toNat)) a :=
    ⟨_, execBuild_valid h h1 h40, gridRead_build h1 h40⟩
  obtain ⟨g, geom, stamped⟩ : ∃ g, exec (.geom v) s = .next g ∧ g.grid = stampedGrid Config.alignTable v.toNat :=
    ⟨_, execGeom_valid h h1 h40, rfl⟩
  have formatted := gridRead_format_cases Config.formatCells (planSize v.toNat) (formatCodeWord l m) g.grid
  simp only [← stamped] at reads
  refine ⟨t, g, build, geom, fun a hrole => ?kept, fun a hne => ?changed, fun a => ?roles⟩
  case kept =>
    rw [reads]
    rw [stamped] at hrole ⊢
    exact gridRead_format_stampedGrid_of_role h1 h40 _ hrole
  case changed =>
    rw [reads] at hne ⊢
    exact (formatted a).resolve_right hne
  case roles =>
    rw [reads]
    rcases formatted a with role | same
    · rw [role]; decide
    · rw [same, stamped]
      exact (gridRead_stampedGrid_fields h1 a).1.trans (by decide)

/-! What every command does to STAGE and to payload cells (R201, R210) -/

/-- Settles O41: a command that fails keeps STAGE, and each command that completes met its requirement and answers a named
update with its own STAGE. -/
theorem stageFollowsTheOrder : Obligations.StageFollowsTheOrder := by
  intro i s t h
  by_cases hf : Fails s t
  · obtain ⟨e, faulted, -⟩ := Fails_frame hf
    exact .inl ⟨faulted, by rw [e]⟩
  rw [exec_eq_execWith] at h
  cases i with
  | build v l m =>
    obtain ⟨h0, ⟨hv, rfl⟩ | ⟨hv, u, hu, rfl⟩⟩ := (execBuildWith_next h).resolve_left hf
    · exact .inr ⟨h0, h0, (if_neg hv).symm⟩
    · obtain ⟨-, rfl⟩ := runFormat_eq_next hu
      exact .inr ⟨h0, h0, (if_pos hv).symm⟩
  | geom v =>
    obtain ⟨h0, ⟨hv, rfl⟩ | ⟨hv, rfl⟩⟩ := (execGeomWith_next h).resolve_left hf
    · exact .inr ⟨h0, h0, (if_neg hv).symm⟩
    · exact .inr ⟨h0, h0, (if_pos hv).symm⟩
  | fmt l m =>
    obtain ⟨h0, hstage, -, rfl⟩ := (execFmtWith_next h).resolve_left hf
    exact .inr ⟨h0, h0, hstage, rfl⟩
  | lvl l =>
    obtain ⟨h0, hstage, rfl⟩ := (execLvl_next h).resolve_left hf
    exact .inr ⟨h0, h0, hstage, rfl⟩
  | mask m =>
    obtain ⟨h0, hstage, rfl⟩ := (execMask_next h).resolve_left hf
    exact .inr ⟨h0, h0, hstage, rfl⟩
  | bchenc l m =>
    obtain ⟨h0, rfl⟩ := (execBchenc_next h).resolve_left hf
    exact .inr ⟨h0, h0, rfl⟩
  | meval r c =>
    obtain ⟨h0, rfl⟩ := (execMeval_next h).resolve_left hf
    exact .inr ⟨h0, h0, rfl⟩
  | pxrd r c =>
    obtain ⟨h0, hplan, -, rfl⟩ := (execPxrd_next h).resolve_left hf
    exact .inr ⟨h0, h0, hplan, rfl⟩
  | pxwr r c p =>
    obtain ⟨h0, -, hplan, -, rfl⟩ := (execPxwr_next h).resolve_left hf
    exact .inr ⟨h0, h0, hplan, rfl⟩
  | rdreg n =>
    obtain ⟨x, -, rfl⟩ := (execRdreg_next h).resolve_left fun hr => hf hr.2
    by_cases h0 : s.fcause = 0
    · exact .inr ⟨h0, h0, rfl⟩
    · exact .inl ⟨h0, rfl⟩

/-- Settles O43: of the commands other than PXWR only BUILD, GEOM, FMT and MASK write the grid; a stamped or emptied grid has no
payload cell, the format writer makes none, and the mask applicator keeps roles. -/
theorem onlyPxwrMarksPayload : Obligations.OnlyPxwrMarksPayload := by
  intro i s t h hi a ha
  obtain ⟨-, -, -, -, -, -, -, -, -, -, -, grid, -⟩ := onlyListedCommandsWrite i s t h
  by_cases hsame : t.grid = s.grid
  · rwa [hsame] at ha
  have hf : ¬Fails s t := fun hf => hsame (by rw [(Fails_frame hf).1])
  have hwrites := grid.resolve_left hsame
  rw [exec_eq_execWith] at h
  cases i with
  | build v l m =>
    obtain ⟨-, ⟨-, rfl⟩ | ⟨hv, u, hu, rfl⟩⟩ := (execBuildWith_next h).resolve_left hf
    · cases pixIsPayload_cleared.symm.trans ha
    · obtain ⟨-, rfl⟩ := runFormat_eq_next hu
      have noPayload := formatted_stampedGrid_no_payload (T := Config.tables) hv.1 (planSize v.toNat) (formatCodeWord l m) a
      rw [← gridRead_build (s := s) hv.1 hv.2] at noPayload
      cases noPayload.symm.trans ha
  | geom v =>
    obtain ⟨-, ⟨-, rfl⟩ | ⟨hv, rfl⟩⟩ := (execGeomWith_next h).resolve_left hf
    · cases pixIsPayload_cleared.symm.trans ha
    · cases (stampedGrid_no_payload Config.alignTable hv.1 a).symm.trans ha
  | fmt l m =>
    obtain ⟨-, -, -, rfl⟩ := (execFmtWith_next h).resolve_left hf
    exact payload_of_payload_after_format ha
  | mask m =>
    obtain ⟨-, -, rfl⟩ := (execMask_next h).resolve_left hf
    exact (pixIsPayload_gridRead_mask ..).symm.trans ha
  | pxwr r c p => cases hi
  | lvl | bchenc | meval | pxrd | rdreg => simp [startsPlan, isFmt, isMask, isPxwr] at hwrites

/-! LVL and the access commands (R206 to R212) -/

/-- Settles O36: LVL's two checks pass. -/
theorem lvlRecordsLevel : Obligations.LvlRecordsLevel :=
  fun _ _ h hstage => execLvl_valid h hstage

/-- Settles O44: PXRD's checks pass, and the number of the cell's address {row, column} is the grid's key. -/
theorem pxrdReturnsPixel : Obligations.PxrdReturnsPixel := by
  intro s r c h hplan hr hc
  have key : (r ++ c).toNat = cellKey r.toNat c.toNat := cellKey_toNat r c
  rw [key]
  exact execPxrd_valid h hplan hr hc

/-- Settles O45: PXWR's checks pass, and its one write is read back at its own address alone. -/
theorem pxwrReplacesPixel : Obligations.PxwrReplacesPixel := by
  intro s r c p h hp hplan hr hc
  have key : (r ++ c).toNat = cellKey r.toNat c.toNat := cellKey_toNat r c
  rw [key]
  exact ⟨_, execPxwr_valid h hp hplan hr hc, gridRead_write_same .., fun a ha => gridRead_write_other _ p ha⟩

theorem execRdreg_some {n : BitVec 4} {x : RegWord} (h : readReg n s = some x) :
    exec (.rdreg n) s = .next (respond .ok x s) := by
  rw [exec, execRdreg, h]

/-- RDREG of a reserved index is rejected as an illegal word is (30_encoding.md R99 (d)). -/
theorem execRdreg_none {n : BitVec 4} (h : readReg n s = none) : exec (.rdreg n) s = rejectCommand s := by
  rw [exec, execRdreg, h]

/-- Settles O47: each of the fourteen indices reads its register, and RDREG has no other check. -/
theorem rdregReadsEveryRegister : Obligations.RdregReadsEveryRegister :=
  fun _ => ⟨execRdreg_some rfl, execRdreg_some rfl, execRdreg_some rfl, execRdreg_some rfl, execRdreg_some rfl,
    execRdreg_some rfl, execRdreg_some rfl, execRdreg_some rfl, execRdreg_some rfl, execRdreg_some rfl,
    execRdreg_some rfl, execRdreg_some rfl, execRdreg_some rfl, execRdreg_some rfl⟩

/-- Settles O48: the read of index 14 or 15 fails, and RDREG is then rejected by the state of FCAUSE. -/
theorem reservedRegisterFaults : Obligations.ReservedRegisterFaults := by
  intro s n hn
  calc
    exec (.rdreg n) s = rejectCommand s := execRdreg_none (readReg_eq_none_iff.mpr hn)
    _ = .next (if s.fcause = 0 then raiseFault .illegalCommand s else refuseWhileFaulted s) := rejectCommand_eq s
    _ = if s.fcause = 0 then .next (raiseFault .illegalCommand s) else .next (refuseWhileFaulted s) := apply_ite ..

end Sys2Proof.Machine

/-! ### The typed error, the faults and the faulted state (60_exceptions.md) -/

namespace Sys2Proof.Machine

variable {s t : State} {w : CommandWord} {i : Instr} {v r c : BitVec 8} {l : BitVec 2} {m : BitVec 3} {p : Pixel}

/-! The faulted state (R237) -/

/-- A faulted block refuses every command but RDREG before any other check. -/
theorem exec_faulted (h : s.fcause ≠ 0) (hi : ∀ n, i ≠ .rdreg n) : exec i s = .next (refuseWhileFaulted s) := by
  cases i with
  | rdreg n => exact absurd rfl (hi n)
  | build | geom | fmt | lvl | mask | bchenc | meval | pxrd | pxwr => exact unlessFaulted_faulted h

theorem rejectCommand_faulted (h : s.fcause ≠ 0) : rejectCommand s = .next (refuseWhileFaulted s) :=
  unlessFaulted_faulted h

/-- A faulted block refuses every word but a legal RDREG, whether it decodes or not. -/
theorem runCommand_faulted (h : s.fcause ≠ 0) (hw : ∀ n, decode w ≠ .ok (.rdreg n)) :
    runCommand w s = .next (refuseWhileFaulted s) := by
  cases hd : decode w with
  | ok i => exact (runCommand_ok hd).trans (exec_faulted h fun n e => hw n (hd.trans (congrArg _ e)))
  | error e => exact (runCommand_error hd).trans (rejectCommand_faulted h)

/-- A legal RDREG reads its register, faulted or not: the decoder refuses the two reserved indices. -/
theorem runCommand_rdreg {n : BitVec 4} (hd : decode w = .ok (.rdreg n)) :
    ∃ x, readReg n s = some x ∧ runCommand w s = .next (respond .ok x s) := by
  have index : n.toNat < 14 := BitVec.ult_iff_lt.mp (decode_eq_ok_iff.mp hd).1
  cases hread : readReg n s with
  | none => exact absurd (readReg_eq_none_iff.mp hread) (by omega)
  | some x => exact ⟨x, rfl, (runCommand_ok hd).trans (execRdreg_some hread)⟩

theorem exec_keeps_cause (h : s.fcause ≠ 0) (hx : exec i s = .next t) : t.fcause = s.fcause := by
  obtain ⟨-, -, -, -, -, -, cause, -⟩ := onlyListedCommandsWrite i s t hx
  exact cause.resolve_right h

theorem rejectCommand_keeps_cause (h : s.fcause ≠ 0) (hx : rejectCommand s = .next t) : t.fcause = s.fcause := by
  rw [rejectCommand_faulted h] at hx
  exact (congrArg State.fcause (Host.Outcome.next.inj hx)).symm

/-- Settles O11: the two answers of a faulted block, and of the four kinds of step only a reset can touch a cause that is set. -/
theorem faultedStateIsSticky : Obligations.FaultedStateIsSticky := by
  refine fun s h => ⟨fun w hw => runCommand_faulted h hw, fun w n hd => runCommand_rdreg hd, fun t hx hne => ?_⟩
  rcases stepBy_next hx with ⟨-, rfl⟩ | ⟨later, w, hs, rfl⟩ | ⟨-, later, i, -, -, executed⟩ | ⟨-, later, -, -, -, rejected⟩
  · exact absurd rfl hne
  · exact ⟨later, w, hs, rfl⟩
  · exact absurd (exec_keeps_cause (s := accept later s) h executed) hne
  · exact absurd (rejectCommand_keeps_cause (s := accept later s) h rejected) hne

/-! InvalidVersion (R231, R232) -/

theorem execGeom_invalid (h : s.fcause = 0) (hv : v.toNat < 1 ∨ 40 < v.toNat) :
    exec (.geom v) s = .next (raiseInvalidVersion s) :=
  (unlessFaulted_live h).trans (requireVersion_fail (by omega))

theorem execBuild_invalid (h : s.fcause = 0) (hv : v.toNat < 1 ∨ 40 < v.toNat) :
    exec (.build v l m) s = .next (raiseInvalidVersion s) :=
  (unlessFaulted_live h).trans (requireVersion_fail (by omega))

/-- A response tells its status (30_encoding.md R97). -/
theorem statusCode_eq_of_responseWord_eq {st st' : Status} {d d' : RegWord} (h : responseWord st d = responseWord st' d') :
    statusCode st = statusCode st' := by
  rw [← responseWord_status st d, h, responseWord_status]

/-- A command that answers INVALID_VERSION neither completed nor faulted, so it is a GEOM or BUILD of an invalid version. -/
theorem Answers.version_of_rsp (h : Answers i s t) {d : RegWord} (hr : t.rsp = some (responseWord .invalidVersion d)) :
    ∃ v : BitVec 8, (v.toNat < 1 ∨ 40 < v.toNat) ∧ (i = .geom v ∨ ∃ l m, i = .build v l m) := by
  rcases h with ⟨⟨_, ok⟩, -⟩ | ⟨-, -, version⟩ | ⟨failed, -⟩
  · cases statusCode_eq_of_responseWord_eq (Option.some.inj (ok.symm.trans hr))
  · exact version
  · obtain ⟨-, -, -, fault⟩ := Fails_frame failed
    cases statusCode_eq_of_responseWord_eq (Option.some.inj (fault.symm.trans hr))

/-- Settles O14: GEOM and BUILD share the version check, and no other kind of answer has the status INVALID_VERSION. -/
theorem invalidVersionEmptiesPlan : Obligations.InvalidVersionEmptiesPlan := by
  refine ⟨fun s v l m h hv => ⟨execGeom_invalid h hv, execBuild_invalid h hv⟩, fun i s t hx hr => ?_⟩
  rw [exec_eq_execWith] at hx
  exact (execWith_answers hx).version_of_rsp (d := 0) hr

/-- Settles O15: raising InvalidVersion sets no cause, so the checks of a valid GEOM or BUILD pass. -/
theorem invalidVersionIsRecoverable : Obligations.InvalidVersionIsRecoverable := by
  intro s t v v' l m h hv h1 h40 hx
  obtain rfl : raiseInvalidVersion s = t := Host.Outcome.next.inj ((execGeom_invalid h hv).symm.trans hx)
  have live : (raiseInvalidVersion s).fcause = 0 := h
  exact ⟨live, ⟨_, execGeom_valid live h1 h40, rfl, rfl⟩, ⟨_, execBuild_valid live h1 h40, rfl, rfl⟩⟩

/-! The faults SEQUENCE, BOUNDS and ILLEGAL_COMMAND, and their order (R238 to R243) -/

theorem execFmt_outOfOrder (h : s.fcause = 0) (hstage : s.stage ≠ 1) : exec (.fmt l m) s = .next (raiseFault .sequence s) :=
  (unlessFaulted_live h).trans (requireStage_fail hstage)

theorem execLvl_outOfOrder (h : s.fcause = 0) (hstage : s.stage ≠ 2) : exec (.lvl l) s = .next (raiseFault .sequence s) :=
  (unlessFaulted_live h).trans (requireStage_fail hstage)

theorem execMask_outOfOrder (h : s.fcause = 0) (hstage : s.stage ≠ 3) : exec (.mask m) s = .next (raiseFault .sequence s) :=
  (unlessFaulted_live h).trans (requireStage_fail hstage)

theorem execPxrd_noPlan (h : s.fcause = 0) (hplan : s.stage = 0) : exec (.pxrd r c) s = .next (raiseFault .sequence s) :=
  (unlessFaulted_live h).trans (requirePlan_fail hplan)

theorem execPxwr_noPlan (h : s.fcause = 0) (hp : pixLegal p = true) (hplan : s.stage = 0) :
    exec (.pxwr r c p) s = .next (raiseFault .sequence s) :=
  (unlessFaulted_live h).trans ((requireLegal_pass hp).trans (requirePlan_fail hplan))

theorem requireLegal_fail {legal : Bool} {go : Result} (h : legal ≠ true) :
    requireLegal legal s go = .next (raiseFault .illegalCommand s) :=
  if_neg h

theorem execPxwr_illegal (h : s.fcause = 0) (hp : pixLegal p ≠ true) :
    exec (.pxwr r c p) s = .next (raiseFault .illegalCommand s) :=
  (unlessFaulted_live h).trans (requireLegal_fail hp)

theorem execPxrd_outside (h : s.fcause = 0) (hplan : s.stage ≠ 0) (hcell : ¬(r.toNat < s.size.toNat ∧ c.toNat < s.size.toNat)) :
    exec (.pxrd r c) s = .next (raiseFault .bounds s) :=
  (unlessFaulted_live h).trans ((requirePlan_pass hplan).trans (requireCell_fail hcell))

theorem execPxwr_outside (h : s.fcause = 0) (hp : pixLegal p = true) (hplan : s.stage ≠ 0)
    (hcell : ¬(r.toNat < s.size.toNat ∧ c.toNat < s.size.toNat)) : exec (.pxwr r c p) s = .next (raiseFault .bounds s) :=
  (unlessFaulted_live h).trans ((requireLegal_pass hp).trans ((requirePlan_pass hplan).trans (requireCell_fail hcell)))

/-- Settles O12, a stage or plan check that fails for each command that has one. -/
theorem stageOutOfOrderFaults : Obligations.StageOutOfOrderFaults :=
  fun _ h => ⟨fun _ _ => execFmt_outOfOrder h, fun _ => execLvl_outOfOrder h, fun _ => execMask_outOfOrder h,
    fun _ _ => execPxrd_noPlan h, fun _ _ _ => execPxwr_noPlan h⟩

/-- MEVAL records its vector or is refused; neither writes FCAUSE. -/
theorem execMeval_keeps_cause {i j : BitVec 8} (hx : exec (.meval i j) s = .next t) : t.fcause = s.fcause := by
  by_cases h : s.fcause = 0
  case pos => exact (congrArg State.fcause (Host.Outcome.next.inj ((execMeval_valid h i j).symm.trans hx))).symm
  case neg => exact exec_keeps_cause h hx

/-- Settles O13: a cell outside the grid fails the cell check of PXRD and PXWR; MEVAL has no such check. -/
theorem cellOutsideGridFaults : Obligations.CellOutsideGridFaults := by
  refine ⟨fun s r c h hplan hcell => ?_, fun _ _ _ _ => execMeval_keeps_cause⟩
  have outside : ¬(r.toNat < s.size.toNat ∧ c.toNat < s.size.toNat) := by omega
  exact ⟨execPxrd_outside h hplan outside, fun p hp => execPxwr_outside h hp hplan outside⟩

/-- Settles O16, each clause by the first check that the command fails. -/
theorem firstConditionWins : Obligations.FirstConditionWins := by
  refine ⟨fun s w h hw => ?illegalWhileFaulted, fun s i h hi => exec_faulted h hi, fun s h =>
    ⟨fun r c p hp => ?reservedRole, fun r c p hp hplan => ?noPlan, ?malformedGeom⟩⟩
  case illegalWhileFaulted =>
    obtain ⟨e, hd⟩ := decode_of_illegal hw
    exact (runCommand_error hd).trans (rejectCommand_faulted h)
  case reservedRole => exact execPxwr_illegal h fun legal => pixLegal_iff.mp legal hp
  case noPlan => exact ⟨execPxrd_noPlan h hplan, execPxwr_noPlan h (pixLegal_iff.mpr hp) hplan⟩
  case malformedGeom =>
    obtain ⟨-, -, faults⟩ := illegalWordFaults
    exact faults s 0x20100000 h (by decide)

/-! Between commands (R247) -/

theorem step_idle (h : s.host = []) : step s = .next (idle s) := by
  rw [step, stepBy, h]

/-- Settles O3: with no host move to come a step idles, and idling only withdraws the response. -/
theorem idleKeepsAllState : Obligations.IdleKeepsAllState :=
  fun _ h => step_idle h

end Sys2Proof.Machine

/-! ### Reset, progress and the purity of BUILD (70_reset_and_hazards.md) -/

namespace Sys2Proof.Machine

variable {s s' t : State} {go : Result} {w : CommandWord} {v : BitVec 8} {l : BitVec 2} {m : BitVec 3}
  {later : List HostMove}

/-! Reset (R260, R262) -/

theorem step_reset (h : s.host = .reset :: later) : step s = .next (resetMachine later) := by
  rw [step, stepBy, h]

/-- A reset abandons the command in flight. -/
theorem step_resetInFlight (h : s.host = .resetInFlight w :: later) : step s = .next (resetMachine later) := by
  rw [step, stepBy, h]

/-- Settles O2: either reset move discards the state in which it is taken. -/
theorem resetFromAnyState : Obligations.ResetFromAnyState :=
  fun _ _ _ h => ⟨h.elim step_reset step_resetInFlight, rfl⟩

/-! Progress (R265): a check that fails still answers a next state, and the one stop of the model, a format cell outside the
grid, meets no plan. -/

/-- The answer is a next state, not a stop; `Continues s` is this of the answer of a step. -/
def Proceeds (r : Result) : Prop := ∃ t, r = .next t

theorem Proceeds.next : Proceeds (.next t) := ⟨t, rfl⟩

theorem Proceeds.ite {c : Prop} [Decidable c] {r r' : Result} (h : c → Proceeds r) (h' : ¬c → Proceeds r') :
    Proceeds (if c then r else r') := by
  split
  · exact h ‹_›
  · exact h' ‹_›

theorem Proceeds.unlessFaulted (h : Proceeds go) : Proceeds (unlessFaulted s go) := .ite (fun _ => h) fun _ => .next

theorem Proceeds.requireLegal {legal : Bool} (h : Proceeds go) : Proceeds (requireLegal legal s go) :=
  .ite (fun _ => h) fun _ => .next

theorem Proceeds.requireStage {n : BitVec 3} (h : s.stage = n → Proceeds go) : Proceeds (requireStage n s go) :=
  .ite h fun _ => .next

theorem Proceeds.requirePlan (h : Proceeds go) : Proceeds (requirePlan s go) := .ite (fun _ => .next) fun _ => h

theorem Proceeds.requireCell {r c : Nat} (h : Proceeds go) : Proceeds (requireCell r c s go) :=
  .ite (fun _ => h) fun _ => .next

theorem Proceeds.requireVersion (h : 1 ≤ v.toNat ∧ v.toNat ≤ 40 → Proceeds go) : Proceeds (requireVersion v s go) :=
  .ite (fun valid => h (versionValid_iff.mp valid)) fun _ => .next

theorem rejectCommand_proceeds : Proceeds (rejectCommand s) := .unlessFaulted .next

/-- At STAGE 1 SIZE is the side of a version's grid (10_state.md R24), so no default format cell lies outside. -/
theorem Inv.runFormat_then_proceeds (h : Inv s) (hstage : s.stage = 1) {k : State → Result} (hk : ∀ u, Proceeds (k u)) :
    Proceeds (andThen (runFormat Config.tables l m s) k) := by
  have hplan : s.stage ≠ 0 := by rw [hstage]; decide
  obtain ⟨-, -, size⟩ := h.plan_shape hplan
  rw [runFormat_next (by rw [size]; exact formatCellsFit_planSize)]
  exact hk _

theorem Inv.exec_proceeds (h : Inv s) (i : Instr) : Proceeds (exec i s) := by
  cases i with
  | build v l m =>
    exact .unlessFaulted <| .requireVersion fun hv => (h.after_runGeometry hv).runFormat_then_proceeds rfl fun _ => .next
  | geom v => exact .unlessFaulted <| .requireVersion fun _ => .next
  | fmt l m => exact .unlessFaulted <| .requireStage fun hstage => h.runFormat_then_proceeds hstage fun _ => .next
  | lvl l => exact .unlessFaulted <| .requireStage fun _ => .next
  | mask m => exact .unlessFaulted <| .requireStage fun _ => .next
  | bchenc l m => exact .unlessFaulted .next
  | meval r c => exact .unlessFaulted .next
  | pxrd r c => exact .unlessFaulted <| .requirePlan <| .requireCell .next
  | pxwr r c p => exact .unlessFaulted <| .requireLegal <| .requirePlan <| .requireCell .next
  | rdreg n =>
    cases hread : readReg n s with
    | none => rw [execRdreg_none hread]; exact rejectCommand_proceeds
    | some x => exact ⟨_, execRdreg_some hread⟩

theorem Inv.runCommand_proceeds (h : Inv s) (w : CommandWord) : Proceeds (runCommand w s) := by
  cases hd : decode w with
  | ok i => rw [runCommand_ok hd]; exact h.exec_proceeds i
  | error e => rw [runCommand_error hd]; exact rejectCommand_proceeds

/-- From a state that meets the invariant the block never hangs. -/
theorem Inv.continues (h : Inv s) : Continues s := by
  match hs : s.host with
  | [] => exact ⟨_, step_idle hs⟩
  | .command w :: later =>
    have accepted : Inv (accept later s) := h.withFreeFields _ _ _ later
    obtain ⟨t, ht⟩ := accepted.runCommand_proceeds w
    exact ⟨t, (step_command hs).trans ht⟩
  | .reset :: later => exact ⟨_, step_reset hs⟩
  | .resetInFlight w :: later => exact ⟨_, step_resetInFlight hs⟩

/-- Settles O52: under the invariant a step answers a next state, and after a command word that state shows a response. -/
theorem stepNeverStops : Obligations.StepNeverStops := by
  intro s h
  obtain ⟨t, ht⟩ := h.continues
  refine ⟨t, ht, fun w later hs => ?_⟩
  obtain ⟨r, rsp, -⟩ := responseHasItsForm s t w later hs ht
  exact ⟨r, rsp⟩

/-! Purity (R271) -/

/-- Registers 0 to 11 are read from neither MVEC, PXDATA, the response nor the host's moves (10_state.md R21). -/
theorem readReg_congr {n : BitVec 4} (hn : n.toNat ≤ 11)
    (h : t = { s with mvec := t.mvec, pxData := t.pxData, rsp := t.rsp, host := t.host }) : readReg n t = readReg n s := by
  rw [h]
  unfold readReg
  split
  case h_13 | h_14 => omega
  all_goals rfl

/-- Of an unfaulted state BUILD keeps MVEC, PXDATA and the host's moves alone (43_plan_sequencer_and_access.md R203). -/
theorem execBuild_congr (h : s.fcause = 0) (h' : s'.fcause = 0) (h1 : 1 ≤ v.toNat) (h40 : v.toNat ≤ 40) :
    ∃ t t', exec (.build v l m) s = .next t ∧ exec (.build v l m) s' = .next t' ∧
      t = { t' with mvec := t.mvec, pxData := t.pxData, rsp := t.rsp, host := t.host } := by
  refine ⟨_, _, execBuild_valid h h1 h40, execBuild_valid h' h1 h40, ?_⟩
  simp only [respond, runMask, runLevel, formatPlan, recordFormat, runGeometry, h, h']

/-- Settles O39: what two runs of one BUILD may differ in holds neither the grid nor a register up to 11. -/
theorem buildIsPure : Obligations.BuildIsPure := by
  intro s s' v l m h h' h1 h40
  obtain ⟨t, t', build, build', same⟩ := execBuild_congr (l := l) (m := m) h h' h1 h40
  exact ⟨t, t', build, build', by rw [same], fun n hn => readReg_congr hn same⟩

end Sys2Proof.Machine
